-- ==== Sys2Proof/Word.lean ====
section
/-! DEFINITION. The block's plain types: bytes, command words, and the truncation of a rational.
Rules R11 to R14 of `00_scope.md`. -/

namespace Sys2Proof

/-- A byte, a natural in `0 .. 255` (R12). -/
abbrev Byte := BitVec 8

/-- A command or response word: 64 bits, bit 63 the most significant (R13, R82). -/
abbrev Word := BitVec 64

end Sys2Proof
end

