-- ==== Sys2Proof/Syntax.lean ====
section
/-! DEFINITION. The ten port commands, the two ports and the six fault causes
(`30_encoding.md` R81, R86; `60_exceptions.md` R251). -/

namespace Sys2Proof

/-- The two command ports (R18, R81): A is the audio port, C the control port. -/
inductive Port where
  | A
  | C
  deriving DecidableEq, Repr

/-- The fault causes of R251; their codes are `causeCode` in `Machine/Flags.lean`. -/
inductive Cause where
  /-- (port, opcode) is not in the opcode map (R87). -/
  | opcode
  /-- A reserved field is not 0, `code > 65536` or `sel > 7` (R88). -/
  | field
  /-- The command is not accepted in the current state (R235). -/
  | state
  /-- `PULL` with an odd byte count (R201). -/
  | align
  /-- `PULL` of more bytes than the tape holds (R201). -/
  | length
  /-- `OPEN` reported a device spec that differs from the requested one (R231). -/
  | negotiation
  deriving DecidableEq, Repr

/-- The port commands, one constructor per row of the opcode table (R86), operands in the order of
that table and at the widths of the formats of R83. -/
inductive Instr where
  /-- `PULL nbytes` (R200, R205). -/
  | pull (nbytes : BitVec 32)
  /-- `OPEN rate_hz, buf_samples, channels, fmt` (R230, R231). -/
  | openDevice (rateHz : BitVec 32) (bufSamples : BitVec 16) (channels fmt : BitVec 4)
  /-- `CLOSE` (R232). -/
  | closeDevice
  /-- `SETH code` (R158). -/
  | seth (code : BitVec 17)
  /-- `SETC code` (R159). -/
  | setc (code : BitVec 17)
  /-- `VINC` (R160). -/
  | vinc
  /-- `VDEC` (R161). -/
  | vdec
  /-- `TRIGE` (R134). -/
  | trige
  /-- `TRIGS` (R135). -/
  | trigs
  /-- `RDSTAT sel` (R233). -/
  | rdstat (sel : BitVec 4)
  deriving DecidableEq, Repr

end Sys2Proof
end

