-- ==== Sys2Proof/WellFormed.lean ====
section
/-! DEFINITION. Which operand values denote a command (`30_encoding.md` R85, R88). -/

namespace Sys2Proof

/-- A control value code is legal when it denotes a value of `[0,1]`: `0 .. 65536` (R85). -/
def codeLegal (code : BitVec 17) : Bool := decide (code.toNat ≤ 65536)

/-- A status selector is legal in `0 .. 7` (R84, R234). -/
def selLegal (sel : BitVec 4) : Bool := decide (sel.toNat ≤ 7)

/-- A command whose operands R88 calls legal. `PULL` and `OPEN` have no operand value that is
illegal at decode; the legality of a byte count is checked against the state (R201). -/
def Instr.wf : Instr → Bool
  | .pull _ => true
  | .openDevice _ _ _ _ => true
  | .closeDevice => true
  | .seth code => codeLegal code
  | .setc code => codeLegal code
  | .vinc => true
  | .vdec => true
  | .trige => true
  | .trigs => true
  | .rdstat sel => selLegal sel

end Sys2Proof
end

