-- ==== Sys2Proof/Decode.lean ====
section
/-! DEFINITION. Decoding of a (port, word) pair, total and rejecting by cause; the encoder; the byte
transport of a word (`30_encoding.md` R82 to R91). -/

namespace Sys2Proof

/-- The five formats of R83. -/
inductive Format where
  | Z
  | N
  | V
  | O
  | S
  deriving DecidableEq, Repr

/-- The ten opcodes of R86, without operands. -/
inductive Opcode where
  | pull
  | openDevice
  | closeDevice
  | seth
  | setc
  | vinc
  | vdec
  | trige
  | trigs
  | rdstat
  deriving DecidableEq, Repr

/-- One row of the opcode map of R86: the port that owns the command, its opcode byte, its name. -/
structure OpRow where
  port : Port
  op : BitVec 8
  name : Opcode
  deriving DecidableEq, Repr

/-- Why a byte sequence is no command: it does not carry one 64-bit word (R82, R91), or the word
raises a decode fault (R90). -/
inductive Reject where
  | notOneWord
  | raises (c : Cause)
  deriving DecidableEq, Repr

/-- The complete opcode map (R86). -/
def opcodeMap : List OpRow :=
  [⟨.A, 0x10#8, .pull⟩, ⟨.C, 0x20#8, .openDevice⟩, ⟨.C, 0x21#8, .closeDevice⟩,
   ⟨.C, 0x30#8, .seth⟩, ⟨.C, 0x31#8, .setc⟩, ⟨.C, 0x40#8, .vinc⟩, ⟨.C, 0x41#8, .vdec⟩,
   ⟨.C, 0x50#8, .trige⟩, ⟨.C, 0x51#8, .trigs⟩, ⟨.C, 0x60#8, .rdstat⟩]

/-- The opcode a (port, opcode byte) pair stands for; none is an illegal opcode (R87). -/
def lookupOp (p : Port) (op : BitVec 8) : Option Opcode :=
  (opcodeMap.find? fun r => r.port == p && r.op == op).map OpRow.name

/-- The format of each command (R86). -/
def Opcode.format : Opcode → Format
  | .pull => .N
  | .openDevice => .O
  | .closeDevice => .Z
  | .seth => .V
  | .setc => .V
  | .vinc => .Z
  | .vdec => .Z
  | .trige => .Z
  | .trigs => .Z
  | .rdstat => .S

/-- `op = w[63:56]` (R82). -/
def opField (w : Word) : BitVec 8 := w.extractLsb' 56 8

/-- `nbytes = w[31:0]` (R83, format N). -/
def nbytesField (w : Word) : BitVec 32 := w.extractLsb' 0 32

/-- `code = w[16:0]` (R83, format V). -/
def codeField (w : Word) : BitVec 17 := w.extractLsb' 0 17

/-- `rate_hz = w[31:0]` (R83, format O). -/
def rateField (w : Word) : BitVec 32 := w.extractLsb' 0 32

/-- `buf_samples = w[47:32]` (R83, format O). -/
def bufField (w : Word) : BitVec 16 := w.extractLsb' 32 16

/-- `channels = w[51:48]` (R83, format O). -/
def channelsField (w : Word) : BitVec 4 := w.extractLsb' 48 4

/-- `fmt = w[55:52]` (R83, format O). -/
def fmtField (w : Word) : BitVec 4 := w.extractLsb' 52 4

/-- `sel = w[3:0]` (R83, format S). -/
def selField (w : Word) : BitVec 4 := w.extractLsb' 0 4

/-- The field checks of R90: reserved bits 0, a control code at most 65536, a selector at most 7. -/
def fieldsLegal : Format → Word → Bool
  | .Z, w => w.extractLsb' 0 56 == 0#56
  | .N, w => w.extractLsb' 32 24 == 0#24
  | .V, w => w.extractLsb' 17 39 == 0#39 && codeLegal (codeField w)
  | .O, _ => true
  | .S, w => w.extractLsb' 4 52 == 0#52 && selLegal (selField w)

/-- The command with its operands taken directly from the word's bits (R84). -/
def assemble : Opcode → Word → Instr
  | .pull, w => .pull (nbytesField w)
  | .openDevice, w => .openDevice (rateField w) (bufField w) (channelsField w) (fmtField w)
  | .closeDevice, _ => .closeDevice
  | .seth, w => .seth (codeField w)
  | .setc, w => .setc (codeField w)
  | .vinc, _ => .vinc
  | .vdec, _ => .vdec
  | .trige, _ => .trige
  | .trigs, _ => .trigs
  | .rdstat, w => .rdstat (selField w)

/-- The decode procedure of R90, total on every (port, word) pair. -/
def decode (p : Port) (w : Word) : Except Cause Instr :=
  match lookupOp p (opField w) with
  | none => .error .opcode
  | some o => if fieldsLegal o.format w then .ok (assemble o w) else .error .field

/-- The 64-bit word of a byte sequence that carries one: 8 bytes, `w[7:0]` first (R91). -/
def wordOfBytes : List Byte → Option Word
  | [b0, b1, b2, b3, b4, b5, b6, b7] => some (b7 ++ b6 ++ b5 ++ b4 ++ b3 ++ b2 ++ b1 ++ b0)
  | _ => none

/-- The bytes that carry a word, `w[7:0]` first and the opcode byte last (R91). -/
def bytesOfWord (w : Word) : List Byte :=
  [w.extractLsb' 0 8, w.extractLsb' 8 8, w.extractLsb' 16 8, w.extractLsb' 24 8,
   w.extractLsb' 32 8, w.extractLsb' 40 8, w.extractLsb' 48 8, w.extractLsb' 56 8]

/-- Decoding of any byte sequence presented on a port. -/
def decodeBytes (p : Port) (bs : List Byte) : Except Reject Instr :=
  match wordOfBytes bs with
  | none => .error .notOneWord
  | some w =>
    match decode p w with
    | .ok i => .ok i
    | .error c => .error (.raises c)

/-- The port whose opcode map holds this opcode byte; port C for a byte that is in neither map. The
port is not in the word (R81), so a bare word is presented on the port its opcode belongs to
(log entry 15). -/
def ownerPort (w : Word) : Port :=
  match opcodeMap.find? fun r => r.op == opField w with
  | some r => r.port
  | none => .C

/-- The word whose low `nbits` bits are those of `w` and whose other bits are 0. -/
def tableWord (nbits w : Nat) : Word := BitVec.ofNat 64 (w % 2 ^ nbits)

/-- The instruction the decoder reads from a word of the opcode table, through the byte transport. -/
def decodeTableWord (nbits w : Nat) : Option Instr :=
  match decodeBytes (ownerPort (tableWord nbits w)) (bytesOfWord (tableWord nbits w)) with
  | .ok i => some i
  | .error _ => none

/-! ## The encoder -/

/-- The port that accepts a command (R81, R86). -/
def Instr.port : Instr → Port
  | .pull _ => .A
  | .openDevice _ _ _ _ => .C
  | .closeDevice => .C
  | .seth _ => .C
  | .setc _ => .C
  | .vinc => .C
  | .vdec => .C
  | .trige => .C
  | .trigs => .C
  | .rdstat _ => .C

/-- The command word of a command: opcode byte, then the fields of its format with every reserved bit
0 (R83, R86). -/
def encode : Instr → Word
  | .pull n => 0x10#8 ++ (0#24 ++ n)
  | .openDevice rate buf ch fmt => 0x20#8 ++ (fmt ++ (ch ++ (buf ++ rate)))
  | .closeDevice => 0x21#8 ++ 0#56
  | .seth code => 0x30#8 ++ (0#39 ++ code)
  | .setc code => 0x31#8 ++ (0#39 ++ code)
  | .vinc => 0x40#8 ++ 0#56
  | .vdec => 0x41#8 ++ 0#56
  | .trige => 0x50#8 ++ 0#56
  | .trigs => 0x51#8 ++ 0#56
  | .rdstat sel => 0x60#8 ++ (0#52 ++ sel)

end Sys2Proof
end

