-- ==== Sys2Proof/Config.lean ====
section
/-! DEFINITION. The configuration record `CFG` (`00_scope.md` R8, R9) and the free values: what the
spec leaves to the environment or does not state. -/

namespace Sys2Proof

/-- What `CAST16` does out of range (R8, R156). -/
inductive SatPolicy where
  | saturate
  | wrap
  deriving DecidableEq, Repr

/-- The configuration record `CFG` of R8. `CHANNELS` and `SAMPLE_FORMAT` are constants, not
parameters: `Cfg.channels` and `Cfg.sampleFormat`. -/
structure Cfg where
  /-- `SAMPLE_RATE_HZ`, samples per second. -/
  sampleRateHz : Nat
  /-- `DEVICE_BUF_SAMPLES`, the device buffer size `OPEN` must report. -/
  deviceBufSamples : Nat
  /-- `TAPE_LEN`, written `L`: bytes of tape. -/
  tapeLen : Nat
  /-- `A_MAX`, amplitude scale of one voice. -/
  aMax : Rat
  /-- `FREQ_BASE_HZ`, the fundamental at `HEIGHT` = 1. -/
  freqBaseHz : Rat
  /-- `MAX_COUNT`, capacity of the voice bank. -/
  maxCount : Nat
  /-- `ENV_PERIOD_S`, the envelope period of `TRIGE`. -/
  envPeriodS : Rat
  /-- `SUS_PERIOD_S`, the envelope period of `TRIGS`. -/
  susPeriodS : Rat
  /-- `SAT_POLICY`. -/
  satPolicy : SatPolicy
  deriving DecidableEq, Repr

/-- `CHANNELS` = 1 (R8). -/
def Cfg.channels : Nat := 1

/-- The code of `SAMPLE_FORMAT` "16-bit signed little-endian" in the field `fmt` of `OPEN` (R8, R84). -/
def Cfg.sampleFormat : Nat := 1

/-- R9: every parameter in its type of R8, and `FREQ_BASE_HZ * MAX_COUNT <= SAMPLE_RATE_HZ`. The
rational comparisons are written over numerators and denominators, so that plain evaluation decides
them; `Cfg.wf_iff` in `Laws/State.lean` gives them back as R9 has them. -/
def Cfg.wf (c : Cfg) : Bool :=
  decide (0 < c.sampleRateHz ∧ 0 < c.deviceBufSamples ∧ 2 ≤ c.tapeLen ∧ c.tapeLen % 2 = 0 ∧
    0 < c.aMax.num ∧ 0 < c.freqBaseHz.num ∧ 1 ≤ c.maxCount ∧
    0 < c.envPeriodS.num ∧ 0 < c.susPeriodS.num ∧
    c.freqBaseHz.num * c.maxCount ≤ c.sampleRateHz * c.freqBaseHz.den)

/-- The configuration `State.reset` is built on: the spec's own test configuration T3
(`95_test_vectors.md`), the one with the documented sample rate and a documented buffer size
(DESIGN CHOICE, unsafe, log entry 2). No statement rests on it. -/
def Cfg.atReset : Cfg :=
  { sampleRateHz := 44100
    deviceBufSamples := 512
    tapeLen := 16
    aMax := 4000
    freqBaseHz := 440
    maxCount := 8
    envPeriodS := 1
    susPeriodS := 2
    satPolicy := .saturate }

/-- One noise draw: a rational of `[-1/2, 1/2]`, and under no other law (R112, R113). -/
structure Draw where
  val : Rat := 0
  inRange : -1/2 ≤ val ∧ val ≤ 1/2 := by norm_num
  deriving DecidableEq, Repr, Inhabited

/-- The draw the environment supplies at position `k` of the noise sequence, where the state injects
none: a free value in `[-1/2, 1/2]` (R113; `93_implementation_defined.md` U5; log entry 6). -/
opaque Config.freeDraw (k : Nat) : Draw

/-- What `RDSTAT` responds for a selected value of `2^64` or more: `zext_64` is not defined there
(R13, R234), so the word is a free value of that natural (log entry 10). -/
opaque Config.wideStatus (v : Nat) : Word

end Sys2Proof
end

