-- ==== Sys2Proof/Machine/State.lean ====
section
/-! DEFINITION. The state of the block (`10_state.md` R20), the environment's side of its ports, the
reasons a step can stop, and the state after reset (R39). -/

namespace Sys2Proof.Machine

/-- `STATE` (R30); code 3 is never held. -/
inductive OpState where
  | idle
  | run
  | fault
  deriving DecidableEq, Repr

/-- What the outside presents to the block, one item at a time between commands. -/
inductive Input where
  /-- The `RESET` input is asserted and released (R290). -/
  | reset
  /-- A host presents a command word on its port (R81). -/
  | command (p : Port) (w : Word)
  deriving DecidableEq, Repr

/-- The reasons a step stops with no next state. -/
inductive Fault where
  /-- Raised by every command but a well-formed `RDSTAT` presented in state `FAULT`: the word is
  discarded, the command has no step and its host is never answered (R259). Safe: nothing can be
  proved of a run that on the block never completes. -/
  | discarded
  /-- Raised by a tape access past `TAPE_LEN` (R53, R54): only from a state outside the invariants of
  R37, never reached from reset (R254). Safe. -/
  | tapeRange
  /-- Raised by `MIX` on a voice index with no phase register: only from a state outside the
  invariants of R37, never reached from reset (R254). Safe. -/
  | voiceRange
  deriving DecidableEq, Repr

/-- The reasons the model gives no meaning. -/
inductive Refusal where
  /-- An instruction with no meaning yet; no arm of `exec` answers it. Safe. -/
  | notModelled (mnemonic : String)
  /-- The configuration is not well formed: a model gives it no behaviour (R9). Safe. -/
  | illFormedConfiguration
  deriving DecidableEq, Repr

/-- The machine: the fourteen members of the tuple of R20; the configuration, which no step changes
(R36, log entry 1); and the environment's side of the ports, no state of the block (log entries 4, 6
and 7). -/
structure State where
  /-- `PH[0 .. MAX_COUNT-1]`, the voice phases (R21). -/
  ph : List Rat
  /-- `VCOUNT`, the number of active voices (R22). -/
  vcount : Nat
  /-- `ENV_PH`, the envelope phase (R25). -/
  envPh : Rat
  /-- `ENV_EN` (R26). -/
  envEn : Bool
  /-- `ENV_SEL` (R27). -/
  envSel : Bool
  /-- `HEIGHT`, a 17-bit control code (R28). -/
  height : BitVec 17
  /-- `CDIST`, a 17-bit control code (R29). -/
  cdist : BitVec 17
  /-- `TAPE`, the listed bytes by address; an unlisted address reads `0x00` (R24, R39, R51). -/
  tape : List Host.Cell
  /-- `CURSOR`, the playback cursor (R23). -/
  cursor : Nat
  /-- `STATE` (R30). -/
  opState : OpState
  /-- `FCAUSE` (R31). -/
  fcause : BitVec 4
  /-- `FINFO` (R32). -/
  finfo : Word
  /-- `FPORT` (R32). -/
  fport : BitVec 1
  /-- `OVF` (R33). -/
  ovf : Bool
  /-- `CFG` (R8). -/
  cfg : Cfg
  /-- What the hosts present next, in the total order of R61. -/
  inputs : List Input
  /-- The injected noise draws, next one first (R113). -/
  draws : List Draw
  /-- How many draws were taken (R35). -/
  drawPos : Nat
  /-- The bytes delivered on port A since reset, in order (R56, R206). -/
  audioOut : List Byte
  /-- The words delivered on port C's response channel since reset, in order (R92). -/
  responses : List Word
  deriving DecidableEq, Repr

/-- The state right after reset under a configuration: R39 for the block, empty channels for the
environment (log entries 4, 6, 7). -/
def State.resetOf (c : Cfg) : State :=
  { ph := List.replicate c.maxCount 0
    vcount := 1
    envPh := 1
    envEn := false
    envSel := false
    height := 0
    cdist := 0
    tape := []
    cursor := 0
    opState := .idle
    fcause := 0
    finfo := 0
    fport := 0
    ovf := false
    cfg := c
    inputs := []
    draws := []
    drawPos := 0
    audioOut := []
    responses := [] }

/-- The machine right after reset (R39), under the configuration of log entry 2. -/
def State.reset : State := State.resetOf Cfg.atReset

end Sys2Proof.Machine
end

