-- ==== Sys2Proof/Machine/Flags.lean ====
section
/-! DEFINITION. Codes and flags: the state code, the cause codes, the `STATUS` view and the
`FAULT_OUT` output (`10_state.md` R30, R34; `60_exceptions.md` R251, R262). -/

namespace Sys2Proof.Machine

/-- The code of `STATE` (R30). -/
def OpState.code : OpState → BitVec 2
  | .idle => 0
  | .run => 1
  | .fault => 2

/-- The cause codes of R251. -/
def causeCode : Cause → BitVec 4
  | .opcode => 1
  | .field => 2
  | .state => 3
  | .align => 4
  | .length => 5
  | .negotiation => 6

/-- The code `FPORT` holds for a port: 0 for A, 1 for C (R32). -/
def portCode : Port → BitVec 1
  | .A => 0
  | .C => 1

/-- The `STATUS` view (R34): `[1:0]` `STATE`, `[2]` `ENV_EN`, `[3]` `ENV_SEL`, `[4]` `OVF`, `[8:5]`
`FCAUSE`, `[9]` `FPORT`, `[63:10]` zero. -/
def State.statusWord (s : State) : Word :=
  0#54 ++ (s.fport ++ (s.fcause ++ (BitVec.ofBool s.ovf ++ (BitVec.ofBool s.envSel ++
    (BitVec.ofBool s.envEn ++ s.opState.code)))))

/-- `FAULT_OUT`: 1 exactly when `STATE = FAULT` (R262). -/
def State.faultOut (s : State) : Bool := decide (s.opState = .fault)

end Sys2Proof.Machine
end

