-- ==== Sys2Proof/Machine/Operands.lean ====
section
/-! DEFINITION. Operand forms: control values, the byte count, the device spec, and the integer and
rational conversions they use (`00_scope.md` R13, R14; `30_encoding.md` R84, R85). -/

namespace Sys2Proof.Machine

/-- `trunc(q)`: the fraction discarded, toward zero (R14). -/
def trunc (q : Rat) : Int := q.num.tdiv q.den

/-- The value of a control code, `code / 65536` (R85). -/
def controlValue (code : BitVec 17) : Rat := (code.toNat : Rat) / 65536

/-- `H = HEIGHT / 65536` (R28). -/
def State.heightValue (s : State) : Rat := controlValue s.height

/-- `Cd = CDIST / 65536` (R29). -/
def State.cdistValue (s : State) : Rat := controlValue s.cdist

/-- `zext_64(v)` (R13); a natural of `2^64` or more has no such word and gives a free value
(log entry 10). -/
def zext64 (v : Nat) : Word := if v < 2 ^ 64 then BitVec.ofNat 64 v else Config.wideStatus v

/-- `sext_16(v)` of a natural below `2^16` (R13). -/
def sext16 (v : Nat) : Int := if v < 2 ^ 15 then v else (v : Int) - 2 ^ 16

/-- The device spec a host reports meets the one the block requests (R231): rate, channels, format
and buffer size all equal. -/
def deviceSpecMatches (c : Cfg) (rate : BitVec 32) (buf : BitVec 16) (channels fmt : BitVec 4) : Bool :=
  decide (rate.toNat = c.sampleRateHz ∧ channels.toNat = Cfg.channels ∧
    fmt.toNat = Cfg.sampleFormat ∧ buf.toNat = c.deviceBufSamples)

end Sys2Proof.Machine
end

