-- ==== Sys2Proof/Machine/Ops.lean ====
section
/-! DEFINITION. The named operations over tape, registers and channels (`00_scope.md` R14;
`20_memory.md` R53 to R56), taking a fault (`60_exceptions.md` R256) and its only exit, reset
(`70_reset_and_hazards.md` R290). -/

namespace Sys2Proof.Machine

/-! ## The tape as plain memory -/

/-- What an unlisted tape address reads as: the reset content `0x00` (R39). -/
def Memory.unlisted : Byte := 0x00#8

/-- The byte at an address. -/
def Memory.read : List Host.Cell → Nat → Byte
  | [], _ => Memory.unlisted
  | (b, v) :: rest, a => if b = a then v else Memory.read rest a

/-- One byte written; the canonical form is kept, so writing the unlisted value drops the entry. -/
def Memory.write : List Host.Cell → Nat → Byte → List Host.Cell
  | [], a, v => if v = Memory.unlisted then [] else [(a, v)]
  | (b, u) :: rest, a, v =>
    if a < b then (if v = Memory.unlisted then (b, u) :: rest else (a, v) :: (b, u) :: rest)
    else if a = b then (if v = Memory.unlisted then rest else (a, v) :: rest)
    else (b, u) :: Memory.write rest a v

/-- The canonical form: addresses strictly rising, no entry equal to the unlisted value. -/
abbrev Memory.wf (m : List Host.Cell) : Prop :=
  m.Pairwise (fun x y => x.1 < y.1) ∧ ∀ c ∈ m, c.2 ≠ Memory.unlisted

/-- A run of bytes written at ascending addresses. -/
def Memory.writeRun : List Host.Cell → Nat → List Byte → List Host.Cell
  | m, _, [] => m
  | m, a, b :: bs => Memory.writeRun (Memory.write m a b) (a + 1) bs

/-- `TAPE[a]`. -/
def State.tapeByte (s : State) (a : Nat) : Byte := Memory.read s.tape a

/-- `MemRead(addr, n)` (R53): requires `addr + n <= L`, lowest address first, never wraps. -/
def memRead (s : State) (addr n : Nat) : Except Fault (List Byte) :=
  if addr + n ≤ s.cfg.tapeLen then .ok ((List.range n).map fun j => s.tapeByte (addr + j))
  else .error .tapeRange

/-- `MemWrite(addr, n, bs)` (R54), `n` being the length of `bs`: requires `addr + n <= L`. -/
def memWrite (s : State) (addr : Nat) (bs : List Byte) : Except Fault State :=
  if addr + bs.length ≤ s.cfg.tapeLen then .ok { s with tape := Memory.writeRun s.tape addr bs }
  else .error .tapeRange

/-! ## The phase register file -/

/-- Read of `PH[i]` (R14, R21). -/
def readPhase (s : State) (i : Nat) : Except Fault Rat :=
  match s.ph[i]? with
  | some p => .ok p
  | none => .error .voiceRange

/-- Write of `PH[i]` (R14, R21). -/
def writePhase (s : State) (i : Nat) (p : Rat) : State := { s with ph := s.ph.set i p }

/-! ## The channels -/

/-- `OutPush(bs)` (R56). -/
def outPush (bs : List Byte) (s : State) : State := { s with audioOut := s.audioOut ++ bs }

/-- One word on port C's response channel (R92). -/
def respond (w : Word) (s : State) : State := { s with responses := s.responses ++ [w] }

/-- `Draw()`: the next value of the noise input sequence (R14, R113), the state's injected one where
there is one, a free value where there is none (log entry 6). -/
def takeDraw (s : State) : Draw × State :=
  match s.draws with
  | d :: rest => (d, { s with draws := rest, drawPos := s.drawPos + 1 })
  | [] => (Config.freeDraw s.drawPos, { s with drawPos := s.drawPos + 1 })

/-! ## Taking a fault, and reset -/

/-- Fault entry for the command word `w` presented on port `p` (R256): the fault registers are
written, `STATE` becomes `FAULT`, nothing else changes. -/
def takeFault (c : Cause) (p : Port) (w : Word) (s : State) : State :=
  { s with opState := .fault, fcause := causeCode c, finfo := w, fport := portCode p }

/-- `raise Fault(E_x)` while executing the command `i`: its port and its word are those `i` is
encoded on (log entry 9). -/
def raise (c : Cause) (i : Instr) (s : State) : Host.Outcome State Fault Refusal :=
  .next (takeFault c i.port (encode i) s)

/-- `RESET` (R290), the only exit from `FAULT` (R260): every member of the tuple of R20 takes its
value of R39 and the channels start again; the configuration (R291) and what the environment still
supplies stay (log entry 17). -/
def takeReset (s : State) : State :=
  { State.resetOf s.cfg with inputs := s.inputs, draws := s.draws, drawPos := s.drawPos }

/-! ## Acceptance -/

/-- A configuration that is not well formed has no behaviour (R9). -/
def configured (s : State) (body : Host.Outcome State Fault Refusal) : Host.Outcome State Fault Refusal :=
  if s.cfg.wf then body else .refused .illFormedConfiguration

/-- Every command but a well-formed `RDSTAT` is discarded in state `FAULT` (R235, R259). -/
def accepted (s : State) (body : Host.Outcome State Fault Refusal) : Host.Outcome State Fault Refusal :=
  configured s (if s.opState = .fault then .fault .discarded else body)

/-- The outcome of an operation that ends in a state or stops. -/
def finish : Except Fault State → Host.Outcome State Fault Refusal
  | .ok s => .next s
  | .error f => .fault f

end Sys2Proof.Machine
end

