-- ==== Sys2Proof/Machine/Envelope.lean ====
section
/-! DEFINITION. The envelope generator (`42_envelope.md`): `ENVREL`, `ENVADV`, `TRIGE`, `TRIGS`. -/

namespace Sys2Proof.Machine

/-- `ENVREL(p) = 1 - p` (R130). -/
def envrel (p : Rat) : Rat := 1 - p

/-- The period in force, selected by `ENV_SEL` (R27, R131). -/
def envPeriod (s : State) : Rat := if s.envSel then s.cfg.susPeriodS else s.cfg.envPeriodS

/-- The envelope increment per sample, `(1 / T) / SAMPLE_RATE_HZ` (R131). -/
def envIncrement (s : State) : Rat := 1 / envPeriod s / (s.cfg.sampleRateHz : Rat)

/-- `ENVADV()` (R131): advances only if enabled; on reaching 1 it clamps and disables. -/
def envadv (s : State) : State :=
  if s.envEn then
    if 1 ≤ s.envPh + envIncrement s then { s with envPh := 1, envEn := false }
    else { s with envPh := s.envPh + envIncrement s }
  else s

/-- Re-arming by a trigger of either type (R134, R135). -/
def rearm (sel : Bool) (s : State) : State := { s with envPh := 0, envEn := true, envSel := sel }

/-- `TRIGE` (R134). -/
def execTrige (s : State) : Host.Outcome State Fault Refusal := accepted s (.next (rearm false s))

/-- `TRIGS` (R135): as `TRIGE`, with the period `SUS_PERIOD_S`. -/
def execTrigs (s : State) : Host.Outcome State Fault Refusal := accepted s (.next (rearm true s))

end Sys2Proof.Machine
end

