-- ==== Sys2Proof/Machine/PhaseAccumulator.lean ====
section
/-! DEFINITION. The phase accumulator (`41_phase_accumulator.md`): `PHADV`. -/

namespace Sys2Proof.Machine

/-- One accumulator step by an increment: a sum of 1 or more wraps by a single subtraction of 1
(R121). -/
def wrapOnce (q : Rat) : Rat := if 1 ≤ q then q - 1 else q

/-- `PHADV(p, f, fs)` (R121). -/
def phadv (p f fs : Rat) : Rat := wrapOnce (p + f / fs)

end Sys2Proof.Machine
end

