-- ==== Sys2Proof/Machine/Waveform.lean ====
section
/-! DEFINITION. Waveform generators (`40_waveform.md`): `SAW`, `NOISE`. -/

namespace Sys2Proof.Machine

/-- `SAW(p) = p - 1/2` (R110). -/
def saw (p : Rat) : Rat := p - 1 / 2

/-- `NOISE() = Draw()` (R112). -/
def noise (s : State) : Draw × State := takeDraw s

/-- The draws of `k` samples, in sample order (R113, R185). -/
def noiseRun : Nat → State → List Draw × State
  | 0, s => ([], s)
  | k + 1, s => ((noise s).1 :: (noiseRun k (noise s).2).1, (noiseRun k (noise s).2).2)

end Sys2Proof.Machine
end

