-- ==== Sys2Proof/Machine/Mixer.lean ====
section
/-! DEFINITION. The voice bank and mixer (`43_voice_bank_mixer.md`): `MIX`, `CAST16`, `SETH`, `SETC`,
`VINC`, `VDEC`. -/

namespace Sys2Proof.Machine

/-- The frequency of voice `i`: `H * FREQ_BASE_HZ * (i + 1)` (R150). -/
def voiceFrequency (s : State) (i : Nat) : Rat := s.heightValue * s.cfg.freqBaseHz * ((i : Rat) + 1)

/-- The voice loop of `MIX` (R151, R153): `k` voices from index `i` on, in ascending index, each
added to the accumulator and then advanced. -/
def mixVoices : Nat → Nat → Rat → State → Except Fault (Rat × State)
  | 0, _, acc, s => .ok (acc, s)
  | k + 1, i, acc, s =>
    match readPhase s i with
    | .error f => .error f
    | .ok p =>
      mixVoices k (i + 1) (acc + saw p * s.cfg.aMax)
        (writePhase s i (phadv p (voiceFrequency s i) (s.cfg.sampleRateHz : Rat)))

/-- The 16-bit range test of `CAST16`, made after truncation (R155). -/
def inSampleRange (t : Int) : Bool := decide (-32768 ≤ t ∧ t ≤ 32767)

/-- The result of `CAST16` for a truncated value out of range (R156). -/
def outOfRangeSample (policy : SatPolicy) (t : Int) : Int :=
  match policy with
  | .saturate => if 32767 < t then 32767 else -32768
  | .wrap => sext16 (t.emod 65536).toNat

/-- `CAST16(x)` (R155 to R157): the sample, and the state with `OVF` set where it was out of range. -/
def cast16 (x : Rat) (s : State) : Int × State :=
  if inSampleRange (trunc x) then (trunc x, s)
  else (outOfRangeSample s.cfg.satPolicy (trunc x), { s with ovf := true })

/-- The noise term of a sample: `xi * (Cd * A_MAX / 2)` (R151). -/
def noiseTerm (xi : Draw) (s : State) : Rat := xi.val * (s.cdistValue * s.cfg.aMax / 2)

/-- The mix value before the cast (R151): the voices' sum under the envelope multiplier, plus the
noise term, which is not enveloped. -/
def mixTotal (acc : Rat) (xi : Draw) (s : State) : Rat := acc * envrel s.envPh + noiseTerm xi s

/-- `MIX(xi)` (R151): one sample. The envelope is read before it is advanced (R133). -/
def mix (xi : Draw) (s : State) : Except Fault (Int × State) :=
  match mixVoices s.vcount 0 0 s with
  | .error f => .error f
  | .ok (acc, s1) => .ok (cast16 (mixTotal acc xi s1) (envadv s1))

/-- `SETH code` (R158); a code above 65536 raises `E_FIELD` (R85). -/
def execSeth (code : BitVec 17) (s : State) : Host.Outcome State Fault Refusal :=
  accepted s (if codeLegal code then .next { s with height := code } else raise .field (.seth code) s)

/-- `SETC code` (R159); a code above 65536 raises `E_FIELD` (R85). -/
def execSetc (code : BitVec 17) (s : State) : Host.Outcome State Fault Refusal :=
  accepted s (if codeLegal code then .next { s with cdist := code } else raise .field (.setc code) s)

/-- `VINC` (R160): at `MAX_COUNT` the count wraps to 1. -/
def execVinc (s : State) : Host.Outcome State Fault Refusal :=
  accepted s (.next { s with vcount := if s.vcount = s.cfg.maxCount then 1 else s.vcount + 1 })

/-- `VDEC` (R161): at 1 the count wraps to `MAX_COUNT`. -/
def execVdec (s : State) : Host.Outcome State Fault Refusal :=
  accepted s (.next { s with vcount := if s.vcount = 1 then s.cfg.maxCount else s.vcount - 1 })

end Sys2Proof.Machine
end

