-- ==== Sys2Proof/Machine/TapeWriter.lean ====
section
/-! DEFINITION. The sample-to-PCM encoder and the tape writer (`44_pcm_tape_writer.md`): `PCMENC`,
`TWRITE`. -/

namespace Sys2Proof.Machine

/-- `PCMENC(s)` (R180): two's complement, the least significant byte first. -/
def pcmenc (s : Int) : Byte × Byte :=
  (BitVec.ofNat 8 ((s.emod 65536).toNat % 256), BitVec.ofNat 8 ((s.emod 65536).toNat / 256))

/-- The decoding of a byte pair, for the reader of the output stream (R181). -/
def pcmdec (b0 b1 : Byte) : Int := sext16 (b0.toNat + 256 * b1.toNat)

/-- `TWRITE(pos, k, xs)` (R182), `k` being the number of draws: one sample per draw, in ascending
address order, two bytes each. -/
def twrite : Nat → List Draw → State → Except Fault State
  | _, [], s => .ok s
  | pos, xi :: xs, s =>
    match mix xi s with
    | .error f => .error f
    | .ok (v, s1) =>
      match memWrite s1 pos [(pcmenc v).1, (pcmenc v).2] with
      | .error f => .error f
      | .ok s2 => twrite (pos + 2) xs s2

end Sys2Proof.Machine
end

