-- ==== Sys2Proof/Machine/RingBuffer.lean ====
section
/-! DEFINITION. The ring buffer and the pull operation (`45_ring_buffer_pull.md`): `DRAIN`, `REFILL`,
`PULL`. -/

namespace Sys2Proof.Machine

/-- One segment of a drain: `n` bytes from `addr` to the output, the cursor left at `c`. -/
def drainSegment (addr n c : Nat) (s : State) : Except Fault State :=
  match memRead s addr n with
  | .error f => .error f
  | .ok bs => .ok { outPush bs s with cursor := c }

/-- `DRAIN(n)` (R202): the wrap branch is taken when the tape end is reached or crossed. -/
def drain (n : Nat) (s : State) : Except Fault State :=
  if s.cfg.tapeLen - s.cursor ≤ n then
    match drainSegment s.cursor (s.cfg.tapeLen - s.cursor) 0 s with
    | .error f => .error f
    | .ok s1 => drainSegment 0 (n - (s.cfg.tapeLen - s.cursor)) (n - (s.cfg.tapeLen - s.cursor)) s1
  else drainSegment s.cursor n (s.cursor + n) s

/-- `REFILL(c0, n, xs)` (R204): the region just drained is overwritten, in two writer calls where the
fill would cross the tape end. -/
def refill (c0 n : Nat) (xs : List Draw) (s : State) : Except Fault State :=
  if s.cfg.tapeLen < c0 + n then
    match twrite c0 (xs.take ((s.cfg.tapeLen - c0) / 2)) s with
    | .error f => .error f
    | .ok s1 => twrite 0 (xs.drop ((s.cfg.tapeLen - c0) / 2)) s1
  else twrite c0 xs s

/-- The effect of a legal `PULL n` (R205): drain, then refill from the old cursor with the next
`n / 2` draws. -/
def pullBytes (n : Nat) (s : State) : Except Fault State :=
  match drain n s with
  | .error f => .error f
  | .ok s1 => refill s.cursor n (noiseRun (n / 2) s1).1 (noiseRun (n / 2) s1).2

/-- `PULL nbytes` (R201, R205): the checks in the order state, alignment, length (R258), then the
effect. -/
def execPull (nbytes : BitVec 32) (s : State) : Host.Outcome State Fault Refusal :=
  accepted s
    (if s.opState ≠ .run then raise .state (.pull nbytes) s
     else if nbytes.toNat % 2 ≠ 0 then raise .align (.pull nbytes) s
     else if s.cfg.tapeLen < nbytes.toNat then raise .length (.pull nbytes) s
     else finish (pullBytes nbytes.toNat s))

end Sys2Proof.Machine
end

