-- ==== Sys2Proof/Machine/System.lean ====
section
/-! DEFINITION. The system commands (`46_system.md`): `OPEN`, `CLOSE`, `RDSTAT`. -/

namespace Sys2Proof.Machine

/-- `OPEN` (R231): the state check first, then the negotiation check. -/
def execOpenDevice (rate : BitVec 32) (buf : BitVec 16) (channels fmt : BitVec 4) (s : State) :
    Host.Outcome State Fault Refusal :=
  accepted s
    (if s.opState ≠ .idle then raise .state (.openDevice rate buf channels fmt) s
     else if deviceSpecMatches s.cfg rate buf channels fmt then .next { s with opState := .run }
     else raise .negotiation (.openDevice rate buf channels fmt) s)

/-- `CLOSE` (R232). -/
def execCloseDevice (s : State) : Host.Outcome State Fault Refusal :=
  accepted s (if s.opState ≠ .run then raise .state .closeDevice s else .next { s with opState := .idle })

/-- The 64-bit word a selector returns (R234); a selector above 7 returns nothing. -/
def statusValue (sel : BitVec 4) (s : State) : Option Word :=
  match sel.toNat with
  | 0 => some s.statusWord
  | 1 => some (zext64 s.cursor)
  | 2 => some (zext64 s.vcount)
  | 3 => some (s.height.zeroExtend 64)
  | 4 => some (s.cdist.zeroExtend 64)
  | 5 => some s.finfo
  | 6 => some (zext64 s.cfg.tapeLen)
  | 7 => some (zext64 s.cfg.maxCount)
  | _ => none

/-- `RDSTAT sel` (R233): accepted in every state, `FAULT` included; a selector above 7 raises
`E_FIELD`, and is discarded in `FAULT` like any other word (R259). -/
def execRdstat (sel : BitVec 4) (s : State) : Host.Outcome State Fault Refusal :=
  match statusValue sel s with
  | some w => configured s (.next (respond w s))
  | none => accepted s (raise .field (.rdstat sel) s)

end Sys2Proof.Machine
end

