-- ==== Sys2Proof/Machine/Dispatch.lean ====
section
/-! DEFINITION. One arm per command: the call of its meaning. -/

namespace Sys2Proof.Machine

def exec (i : Instr) (s : State) : Host.Outcome State Fault Refusal :=
  match i with
  | .pull nbytes => Sys2Proof.Machine.execPull nbytes s
  | .openDevice rate buf channels fmt => Sys2Proof.Machine.execOpenDevice rate buf channels fmt s
  | .closeDevice => Sys2Proof.Machine.execCloseDevice s
  | .seth code => Sys2Proof.Machine.execSeth code s
  | .setc code => Sys2Proof.Machine.execSetc code s
  | .vinc => Sys2Proof.Machine.execVinc s
  | .vdec => Sys2Proof.Machine.execVdec s
  | .trige => Sys2Proof.Machine.execTrige s
  | .trigs => Sys2Proof.Machine.execTrigs s
  | .rdstat sel => Sys2Proof.Machine.execRdstat sel s

end Sys2Proof.Machine
end

