-- ==== Sys2Proof/Machine/Fetch.lean ====
section
/-! DEFINITION. Taking the next input: a command word presented on a port is decoded and executed, or
raises its decode fault; `RESET` is taken between commands (`30_encoding.md` R90; `20_memory.md` R61;
`70_reset_and_hazards.md` R290). -/

namespace Sys2Proof.Machine

/-- One command word presented on a port (R90): a word that is no command raises its fault, unless
the block is in `FAULT`, where it is discarded (R259). -/
def runWord (p : Port) (w : Word) (s : State) : Host.Outcome State Fault Refusal :=
  match decode p w with
  | .ok i => exec i s
  | .error c => accepted s (.next (takeFault c p w s))

/-- One input in a state from whose list it was taken. -/
def runInput (x : Input) (s : State) : Host.Outcome State Fault Refusal :=
  match x with
  | .reset => configured s (.next (takeReset s))
  | .command p w => runWord p w s

/-- The next input in the total order (R61). With none presented the block waits (R292, log entry 5). -/
def takeInput (s : State) : Host.Outcome State Fault Refusal :=
  match s.inputs with
  | [] => configured s (.next s)
  | x :: rest => runInput x { s with inputs := rest }

/-- A host presents a command word on a port, ahead of every other input. -/
def present (p : Port) (w : Word) (s : State) : State := { s with inputs := .command p w :: s.inputs }

end Sys2Proof.Machine
end

