-- ==== Sys2Proof/Machine/Step.lean ====
section
/-! DEFINITION. One step of the machine: one input taken whole (`00_scope.md` R15). -/

namespace Sys2Proof.Machine

/-- One step: the next input, atomically (R15, R61). -/
def step (s : State) : Host.Outcome State Fault Refusal := takeInput s

/-- The state with a word of the opcode table presented as the next command, on the port its opcode
belongs to (log entries 4, 15). -/
def State.withFetchWord (s : State) (nbits w : Nat) : State :=
  present (ownerPort (tableWord nbits w)) (tableWord nbits w) s

end Sys2Proof.Machine
end

