-- ==== Sys2Proof/Safety.lean ====
section
/-! DEFINITION. What a good state and a good run are: the invariants of `10_state.md` R37, the stream
law of `45_ring_buffer_pull.md` R206 as a property of one state, and the states that are no good end
of a run (`60_exceptions.md` R259). -/

namespace Sys2Proof.Machine

/-- R37, items (1) to (7) in order, with the shape its registers have: a well-formed configuration
(R9), one phase register per voice of the bank (R21), a canonical tape with no byte past its end
(R24), and the fault registers 0 while no fault is held (R32). -/
structure State.Inv (s : State) : Prop where
  cfgWf : s.cfg.wf = true
  phCount : s.ph.length = s.cfg.maxCount
  phRange : ∀ p ∈ s.ph, 0 ≤ p ∧ p < 1
  vcountRange : 1 ≤ s.vcount ∧ s.vcount ≤ s.cfg.maxCount
  cursorRange : s.cursor < s.cfg.tapeLen
  cursorEven : s.cursor % 2 = 0
  envRange : 0 ≤ s.envPh ∧ s.envPh ≤ 1
  envDone : s.envEn = false → s.envPh = 1
  heightLegal : codeLegal s.height = true
  cdistLegal : codeLegal s.cdist = true
  faultHeld : s.opState = .fault ↔ s.fcause ≠ 0
  faultClear : s.fcause = 0 → s.finfo = 0 ∧ s.fport = 0
  tapeWf : Memory.wf s.tape
  tapeBounds : ∀ c ∈ s.tape, c.1 < s.cfg.tapeLen

/-- The samples a run of draws makes `MIX` generate, and the state after the last one: generation apart
from the tape (R182, R209). -/
def generate : List Draw → State → List Int × State
  | [], s => ([], s)
  | xi :: xs, s =>
    match mix xi s with
    | .error _ => ([], s)
    | .ok (v, s1) => (v :: (generate xs s1).1, (generate xs s1).2)

/-- The tape bytes of a run of samples, in address order (R182). -/
def pcmBytes (vs : List Int) : List Byte := vs.flatMap fun v => [(pcmenc v).1, (pcmenc v).2]

/-- The draws of a `PULL n`: one per sample, in sample order (R113). -/
def State.pullDraws (s : State) (n : Nat) : List Draw := (noiseRun (n / 2) s).1

/-- The samples a `PULL n` generates and the registers it leaves (R182, R205). -/
def State.pullGenerated (s : State) (n : Nat) : List Int × State := generate (s.pullDraws n) s

/-- `n` tape bytes from the cursor on, once round the tape end (R203). -/
def State.ringBytes (s : State) (n : Nat) : List Byte :=
  (List.range n).map fun j => s.tapeByte ((s.cursor + j) % s.cfg.tapeLen)

/-- The output stream since reset, continued by what the tape holds from the cursor on (R209). -/
def State.stream (s : State) : List Byte := s.audioOut ++ s.ringBytes s.cfg.tapeLen

/-- The stream law of R206 and R209 as a property of one state: the cursor stands at the number of
bytes delivered, modulo the tape length, and the stream begins with one tape length of silence. -/
structure State.StreamInv (s : State) : Prop where
  cursorCounts : s.cursor = s.audioOut.length % s.cfg.tapeLen
  silentFirst : s.stream.take s.cfg.tapeLen = List.replicate s.cfg.tapeLen 0x00#8

/-- A state that a run may end well in: no fault is held (R259). -/
def State.GoodEnd (s : State) : Prop := s.opState ≠ .fault

end Sys2Proof.Machine
end

