-- ==== Sys2Proof/Certificates/Slice0/Obligations.lean ====
section
/-! DEFINITION. The statements for the provers, in the order of OBLIGATIONS.json. Every one is about all
configurations and states its hypotheses name; none is about a program. -/

open Sys2Proof Sys2Proof.Machine

/-! ## Encoding and decoding -/

/-- Decode and encode agree (R83, R84, R86, R90): every well-formed command, with every operand at every
value its field admits, is what its own word decodes to on its own port. -/
def Obligations.DecodeOfEncodeIsTheCommand : Prop :=
  ∀ i : Instr, i.wf = true → decode i.port (encode i) = .ok i

/-- No bit of a command word is dropped: a word that decodes is the encoding of the command it decodes
to, on that command's port, and the command is well formed (R83, R88, R90). -/
def Obligations.EncodeOfDecodeIsTheWord : Prop :=
  ∀ (p : Port) (w : Word) (i : Instr), decode p w = .ok i → encode i = w ∧ i.port = p ∧ i.wf = true

/-- The words listed in R93 decode to the commands they stand for. -/
def Obligations.ListedWordsDecode : Prop :=
  decode .A 0x1000000000000006#64 = .ok (.pull 6) ∧
  decode .C 0x201102000000AC44#64 = .ok (.openDevice 44100 512 1 1) ∧
  decode .C 0x2011020000000008#64 = .ok (.openDevice 8 512 1 1) ∧
  decode .C 0x2100000000000000#64 = .ok .closeDevice ∧
  decode .C 0x3000000000008000#64 = .ok (.seth 0x8000) ∧
  decode .C 0x3100000000010000#64 = .ok (.setc 0x10000) ∧
  decode .C 0x4000000000000000#64 = .ok .vinc ∧
  decode .C 0x4100000000000000#64 = .ok .vdec ∧
  decode .C 0x5000000000000000#64 = .ok .trige ∧
  decode .C 0x5100000000000000#64 = .ok .trigs ∧
  decode .C 0x6000000000000001#64 = .ok (.rdstat 1)

/-- R84: the operands of a decoded word are the unsigned integers its bits form. -/
def Obligations.OperandsAreTheBitsOfTheirFields : Prop :=
  ∀ (p : Port) (w : Word),
    (∀ n, decode p w = .ok (.pull n) → n.toNat = w.toNat % 2 ^ 32) ∧
    (∀ r b c f, decode p w = .ok (.openDevice r b c f) →
      r.toNat = w.toNat % 2 ^ 32 ∧ b.toNat = w.toNat / 2 ^ 32 % 2 ^ 16 ∧
      c.toNat = w.toNat / 2 ^ 48 % 2 ^ 4 ∧ f.toNat = w.toNat / 2 ^ 52 % 2 ^ 4) ∧
    (∀ code, decode p w = .ok (.seth code) → code.toNat = w.toNat % 2 ^ 17) ∧
    (∀ code, decode p w = .ok (.setc code) → code.toNat = w.toNat % 2 ^ 17) ∧
    (∀ sel, decode p w = .ok (.rdstat sel) → sel.toNat = w.toNat % 2 ^ 4)

/-- R87: on port A every opcode other than `0x10`, on port C every opcode other than the nine, is
illegal whatever the payload, and raises `E_OPCODE` (in a state other than `FAULT`). -/
def Obligations.IllegalOpcodesRaiseOpcodeFault : Prop :=
  ∀ (p : Port) (w : Word),
    let legal := match p with
      | .A => w.toNat / 2 ^ 56 = 0x10
      | .C => w.toNat / 2 ^ 56 ∈ [0x20, 0x21, 0x30, 0x31, 0x40, 0x41, 0x50, 0x51, 0x60]
    (decode p w = .error .opcode ↔ ¬ legal) ∧
    ∀ s : State, s.cfg.wf = true → s.opState ≠ .fault → ¬ legal →
      runWord p w s = .next { s with opState := .fault, fcause := 1, finfo := w, fport := portCode p }

/-- R88: in a legal (port, opcode), a reserved field that is not 0, a code above 65536 or a selector
above 7 raises `E_FIELD`; the fields of `OPEN` and the byte count of `PULL` have no illegal value. -/
def Obligations.ReservedBitsAndRangesRaiseFieldFault : Prop :=
  ∀ (p : Port) (w : Word) (o : Opcode), lookupOp p (opField w) = some o →
    let bad := match o with
      | .pull => w.toNat / 2 ^ 32 % 2 ^ 24 ≠ 0
      | .openDevice => False
      | .closeDevice => w.toNat % 2 ^ 56 ≠ 0
      | .seth => w.toNat / 2 ^ 17 % 2 ^ 39 ≠ 0 ∨ 65536 < w.toNat % 2 ^ 17
      | .setc => w.toNat / 2 ^ 17 % 2 ^ 39 ≠ 0 ∨ 65536 < w.toNat % 2 ^ 17
      | .vinc => w.toNat % 2 ^ 56 ≠ 0
      | .vdec => w.toNat % 2 ^ 56 ≠ 0
      | .trige => w.toNat % 2 ^ 56 ≠ 0
      | .trigs => w.toNat % 2 ^ 56 ≠ 0
      | .rdstat => w.toNat / 2 ^ 4 % 2 ^ 52 ≠ 0 ∨ 7 < w.toNat % 2 ^ 4
    (decode p w = .error .field ↔ bad) ∧ (¬ bad → ∃ i, decode p w = .ok i) ∧
    ∀ s : State, s.cfg.wf = true → s.opState ≠ .fault → bad →
      runWord p w s = .next { s with opState := .fault, fcause := 2, finfo := w, fport := portCode p }

/-- R91: a word travels as eight bytes, `w[7:0]` first and the opcode byte last, each byte its eight
bits; the bytes carry the word back and decode as the word does. -/
def Obligations.ByteTransportIsLittleEndian : Prop :=
  ∀ w : Word,
    (bytesOfWord w).length = 8 ∧
    (∀ k < 8, ((bytesOfWord w).getD k 0).toNat = w.toNat / 256 ^ k % 256) ∧
    (bytesOfWord w).getLast? = some (opField w) ∧
    wordOfBytes (bytesOfWord w) = some w ∧
    ∀ (p : Port) (i : Instr), decodeBytes p (bytesOfWord w) = .ok i ↔ decode p w = .ok i

/-! ## The step -/

/-- A step runs the decoded command (R15, R61, R90): when the next input is a word that decodes to a
command, the step is that command executed in the state from whose input list the word was taken (the list is the
model's form of what the hosts present, log entry 4). -/
def Obligations.StepRunsTheDecodedCommand : Prop :=
  ∀ (s : State) (p : Port) (w : Word) (rest : List Input) (i : Instr),
    s.inputs = .command p w :: rest → decode p w = .ok i →
    step s = exec i { s with inputs := rest }

/-- With no input presented the block waits (R292; that a step of a waiting block changes nothing is the
model's reading, log entry 5). -/
def Obligations.StepWaitsWithoutInput : Prop :=
  ∀ s : State, s.cfg.wf = true → s.inputs = [] → step s = .next s

/-- R290: `RESET` is effective in every state, `FAULT` included, and puts the block in the state of R39;
the configuration is not reset (R291). That later inputs and the noise sequence stay is the model's
choice, log entry 17. -/
def Obligations.ResetIsTakenInEveryState : Prop :=
  ∀ (s : State) (rest : List Input), s.cfg.wf = true → s.inputs = .reset :: rest →
    ∃ t, step s = .next t ∧
      t.ph = List.replicate s.cfg.maxCount 0 ∧ t.vcount = 1 ∧ t.envPh = 1 ∧ t.envEn = false ∧
      t.envSel = false ∧ t.height = 0 ∧ t.cdist = 0 ∧ (∀ a, t.tapeByte a = 0x00#8) ∧ t.cursor = 0 ∧
      t.opState = .idle ∧ t.fcause = 0 ∧ t.finfo = 0 ∧ t.fport = 0 ∧ t.ovf = false ∧
      t.cfg = s.cfg ∧ t.inputs = rest ∧ t.draws = s.draws ∧ t.drawPos = s.drawPos

/-- R39: what reset leaves in every register and at every tape address, under every configuration. -/
def Obligations.ResetLeavesTheListedValues : Prop :=
  ∀ c : Cfg,
    (State.resetOf c).ph.length = c.maxCount ∧ (∀ i < c.maxCount, (State.resetOf c).ph[i]? = some 0) ∧
    (State.resetOf c).vcount = 1 ∧ (State.resetOf c).cursor = 0 ∧
    (∀ a, (State.resetOf c).tapeByte a = 0x00#8) ∧
    (State.resetOf c).envPh = 1 ∧ (State.resetOf c).envEn = false ∧ (State.resetOf c).envSel = false ∧
    (State.resetOf c).height = 0 ∧ (State.resetOf c).cdist = 0 ∧ (State.resetOf c).opState = .idle ∧
    (State.resetOf c).fcause = 0 ∧ (State.resetOf c).finfo = 0 ∧ (State.resetOf c).fport = 0 ∧
    (State.resetOf c).ovf = false

/-- R9: a configuration that breaks a type of R8 or lets a voice outrun the sample rate gets no
behaviour: every command and every step is refused. -/
def Obligations.IllFormedConfigurationIsRefused : Prop :=
  ∀ s : State,
    ¬ (0 < s.cfg.sampleRateHz ∧ 0 < s.cfg.deviceBufSamples ∧ 2 ≤ s.cfg.tapeLen ∧ s.cfg.tapeLen % 2 = 0 ∧
      0 < s.cfg.aMax ∧ 0 < s.cfg.freqBaseHz ∧ 1 ≤ s.cfg.maxCount ∧ 0 < s.cfg.envPeriodS ∧
      0 < s.cfg.susPeriodS ∧ s.cfg.freqBaseHz * s.cfg.maxCount ≤ s.cfg.sampleRateHz) →
    (∀ i, exec i s = .refused .illFormedConfiguration) ∧ step s = .refused .illFormedConfiguration

/-! ## Invariants -/

/-- Reset meets the invariants of R37 and the stream law, under every well-formed configuration. -/
def Obligations.ResetMeetsTheInvariants : Prop :=
  ∀ c : Cfg, c.wf = true → (State.resetOf c).Inv ∧ (State.resetOf c).StreamInv

/-- R37: the invariants hold after every step from every state that meets them, whatever the inputs and
the draws. -/
def Obligations.EveryStepKeepsTheInvariants : Prop :=
  ∀ s t : State, s.Inv → step s = .next t → t.Inv

/-- R206, R209 as an invariant of every step: the cursor counts the bytes delivered modulo the tape
length, and the output stream begins with one tape length of silence. (That the byte count starts again
at `RESET` is the model's bookkeeping, log entry 7.) -/
def Obligations.EveryStepKeepsTheStreamLaw : Prop :=
  ∀ s t : State, s.Inv → s.StreamInv → step s = .next t → t.StreamInv

/-- R254: within the invariants no step is refused and no step stops on a tape address or a voice index;
the only stop is the discarding of a word in state `FAULT` (R259, log entry 8). -/
def Obligations.TheOnlyStopIsDiscarding : Prop :=
  ∀ s : State, s.Inv →
    (∀ r, step s ≠ .refused r) ∧ (∀ f, step s = .fault f → f = .discarded ∧ s.opState = .fault)

/-! ## Waveform, phase accumulator, envelope -/

/-- R111: the sawtooth's range on `[0,1]`, and that it is strictly increasing; its value is a function of
the phase alone. -/
def Obligations.SawtoothRangeAndMonotone : Prop :=
  (∀ p : Rat, 0 ≤ p → p ≤ 1 → -1/2 ≤ saw p ∧ saw p ≤ 1/2) ∧ (∀ p q : Rat, p < q → saw p < saw q) ∧
  saw 0 = -1/2 ∧ saw 1 = 1/2

/-- R122: for `0 <= p < 1` and `0 <= f/fs <= 1` the new phase is in `[0,1)` and is `(p + f/fs) mod 1`;
where the sum reaches 1 it is the sum less 1 exactly; and every active voice's frequency meets the
bound. -/
def Obligations.PhaseAdvanceIsModuloOne : Prop :=
  (∀ p f fs : Rat, 0 ≤ p → p < 1 → 0 < fs → 0 ≤ f → f ≤ fs →
    0 ≤ phadv p f fs ∧ phadv p f fs < 1 ∧ phadv p f fs = Int.fract (p + f / fs) ∧
    (1 ≤ p + f / fs → phadv p f fs = p + f / fs - 1)) ∧
  (∀ (s : State) (i : Nat), s.Inv → i < s.vcount → (0 : Rat) < s.cfg.sampleRateHz ∧
    0 ≤ voiceFrequency s i ∧ voiceFrequency s i ≤ s.cfg.sampleRateHz)

/-- R123 (6): after `k` calls with a constant increment the phase is `(p0 + k * inc) mod 1`, with no
accumulated error. -/
def Obligations.PhaseAfterManySamplesIsExact : Prop :=
  ∀ (p f fs : Rat) (k : Nat), 0 ≤ p → p < 1 → 0 < fs → 0 ≤ f → f ≤ fs →
    (fun q => phadv q f fs)^[k] p = Int.fract (p + k * (f / fs))

/-- R124: with a constant increment `a/b` in lowest terms, `0 < a <= b`, the phase sequence has period
exactly `b` calls and wraps exactly `a` times per period; at 44100 samples per second a voice of a whole
number `f` of hertz has the period `44100 / gcd(f, 44100)`. -/
def Obligations.PhasePeriodIsTheDenominator : Prop :=
  (∀ (p f fs : Rat) (a b : Nat), 0 ≤ p → p < 1 → 0 < fs → 0 < a → a ≤ b → Nat.Coprime a b →
    f / fs = (a : Rat) / b →
    (∀ k : Nat, (fun q => phadv q f fs)^[k] p = p ↔ b ∣ k) ∧
    ((Finset.range b).filter fun k => 1 ≤ (fun q => phadv q f fs)^[k] p + f / fs).card = a) ∧
  (∀ (p : Rat) (f k : Nat), 0 ≤ p → p < 1 → 0 < f → f ≤ 44100 →
    ((fun q => phadv q f 44100)^[k] p = p ↔ 44100 / Nat.gcd f 44100 ∣ k))

/-- R132 over generated samples: after a trigger of either type, with `N = ceil(T * SAMPLE_RATE_HZ)`, the
multiplier the `k`-th sample reads (counting from 0) is `1 - k * inc` for `k < N`, with the envelope
enabled, and `0` from then on, with the envelope disabled. -/
def Obligations.ReleaseLastsItsPeriod : Prop :=
  ∀ (s : State) (sel : Bool) (xs : List Draw), s.Inv →
    let T : Rat := if sel then s.cfg.susPeriodS else s.cfg.envPeriodS
    let N : Nat := ⌈T * s.cfg.sampleRateHz⌉₊
    let u := (generate xs (rearm sel s)).2
    (xs.length < N →
      envrel u.envPh = 1 - xs.length * (1 / (T * s.cfg.sampleRateHz)) ∧ u.envEn = true) ∧
    (N ≤ xs.length → envrel u.envPh = 0 ∧ u.envEn = false)

/-- R136: after the terminal step only `TRIGE`, `TRIGS` or reset change `ENV_PH`, `ENV_EN` or
`ENV_SEL`. -/
def Obligations.EnvelopeNeverRearmsItself : Prop :=
  ∀ s t : State, s.envEn = false → step s = .next t →
    (∀ rest, s.inputs ≠ .reset :: rest) →
    (∀ p w rest, s.inputs = .command p w :: rest → decode p w ≠ .ok .trige ∧ decode p w ≠ .ok .trigs) →
    t.envPh = s.envPh ∧ t.envEn = false ∧ t.envSel = s.envSel

/-! ## The mixer -/

/-- R150, R151, R154: the sample is the cast of the enveloped sum of the active voices plus the noise
term, each voice read by its phase before the advance; active voices advance by their own frequency,
inactive voices hold; the envelope advances once; nothing else changes. -/
def Obligations.MixFollowsItsFormula : Prop :=
  ∀ (s : State) (xi : Draw), s.vcount ≤ s.ph.length →
    let A := s.cfg.aMax
    let x : Rat := (∑ i ∈ Finset.range s.vcount, (s.ph.getD i 0 - 1 / 2) * A) * (1 - s.envPh) +
      xi.val * ((s.cdist.toNat : Rat) / 65536 * A / 2)
    ∃ v t, mix xi s = .ok (v, t) ∧ v = (cast16 x s).1 ∧ t.ovf = (cast16 x s).2.ovf ∧
      (∀ i < s.vcount, t.ph[i]? = some (phadv (s.ph.getD i 0)
        ((s.height.toNat : Rat) / 65536 * s.cfg.freqBaseHz * (i + 1)) s.cfg.sampleRateHz)) ∧
      (∀ i, s.vcount ≤ i → t.ph[i]? = s.ph[i]?) ∧
      t.envPh = (envadv s).envPh ∧ t.envEn = (envadv s).envEn ∧
      t = { s with ph := t.ph, envPh := t.envPh, envEn := t.envEn, ovf := t.ovf }

/-- R152: the bound on the mix value before the cast. -/
def Obligations.MixValueStaysInItsBound : Prop :=
  ∀ (s : State) (xi : Draw), s.Inv →
    let V : Rat := s.vcount
    let A := s.cfg.aMax
    let Cd : Rat := (s.cdist.toNat : Rat) / 65536
    ∃ acc u, mixVoices s.vcount 0 0 s = .ok (acc, u) ∧
      -(V * A / 2) - Cd * A / 4 ≤ mixTotal acc xi u ∧ mixTotal acc xi u < V * A / 2 + Cd * A / 4 ∧
      |mixTotal acc xi u| ≤ V * A / 2 + A / 4

/-- R155, R156, R157: truncation is toward zero for both signs; a truncated value in range is the sample
and changes nothing; out of range `OVF` is set and the policy gives the sample, the nearer end under
`SATURATE` and the two's-complement wrap under `WRAP`. -/
def Obligations.CastTruncatesThenFollowsThePolicy : Prop :=
  ∀ (x : Rat) (s : State),
    (0 ≤ x → trunc x = ⌊x⌋) ∧ (x ≤ 0 → trunc x = ⌈x⌉) ∧
    (-32768 ≤ trunc x ∧ trunc x ≤ 32767 → cast16 x s = (trunc x, s)) ∧
    (¬ (-32768 ≤ trunc x ∧ trunc x ≤ 32767) →
      (cast16 x s).2 = { s with ovf := true } ∧
      (s.cfg.satPolicy = .saturate → (cast16 x s).1 = max (-32768) (min 32767 (trunc x))) ∧
      (s.cfg.satPolicy = .wrap → (cast16 x s).1 % 65536 = trunc x % 65536)) ∧
    -32768 ≤ (cast16 x s).1 ∧ (cast16 x s).1 ≤ 32767

/-- R10, R300: where the configuration keeps `A_MAX * MAX_COUNT / 2 + A_MAX / 4 <= 32767`, no step sets
the overflow flag, whatever the draws. -/
def Obligations.HeadroomRulesOutOverflow : Prop :=
  ∀ s t : State, s.Inv → s.cfg.aMax * s.cfg.maxCount / 2 + s.cfg.aMax / 4 ≤ 32767 →
    step s = .next t → t.ovf = true → s.ovf = true

/-- R33, R157: `OVF` is never cleared except by reset, and only a command on port A can change it. -/
def Obligations.OverflowFlagIsSticky : Prop :=
  ∀ s t : State, step s = .next t → (∀ rest, s.inputs ≠ .reset :: rest) →
    (s.ovf = true → t.ovf = true) ∧
    ((∀ w rest, s.inputs ≠ .command .A w :: rest) → t.ovf = s.ovf)

/-! ## Completion of the control commands -/

/-- R134, R135: `TRIGE` and `TRIGS` execute in `IDLE` and in `RUN`, whatever the envelope does, and write
the three envelope registers and nothing else. -/
def Obligations.TriggersRearmTheEnvelope : Prop :=
  ∀ s : State, s.cfg.wf = true → s.opState ≠ .fault →
    exec .trige s = .next { s with envPh := 0, envEn := true, envSel := false } ∧
    exec .trigs s = .next { s with envPh := 0, envEn := true, envSel := true }

/-- R85, R158, R159: `SETH` and `SETC` execute in `IDLE` and in `RUN` with every legal code and write
their register and nothing else; a code above 65536 raises `E_FIELD`, not clamped (for `exec` on such
a term, log entry 11). -/
def Obligations.ControlCodesAreWrittenWhole : Prop :=
  ∀ (s : State) (code : BitVec 17), s.cfg.wf = true → s.opState ≠ .fault →
    (code.toNat ≤ 65536 →
      exec (.seth code) s = .next { s with height := code } ∧
      exec (.setc code) s = .next { s with cdist := code }) ∧
    (65536 < code.toNat →
      exec (.seth code) s = .next
        { s with opState := .fault, fcause := 2, finfo := encode (.seth code), fport := 1 } ∧
      exec (.setc code) s = .next
        { s with opState := .fault, fcause := 2, finfo := encode (.setc code), fport := 1 })

/-- R160, R161, R162: `VINC` and `VDEC` execute in `IDLE` and in `RUN` and step the voice count with its
wrap, by cases and in closed form; no phase and nothing else is touched. -/
def Obligations.VoiceCountStepsWithItsWrap : Prop :=
  ∀ s : State, s.cfg.wf = true → s.opState ≠ .fault → 1 ≤ s.vcount → s.vcount ≤ s.cfg.maxCount →
    exec .vinc s = .next
      { s with vcount := if s.vcount = s.cfg.maxCount then 1 else s.vcount + 1 } ∧
    exec .vdec s = .next
      { s with vcount := if s.vcount = 1 then s.cfg.maxCount else s.vcount - 1 } ∧
    (if s.vcount = s.cfg.maxCount then 1 else s.vcount + 1) = s.vcount % s.cfg.maxCount + 1 ∧
    ((if s.vcount = 1 then s.cfg.maxCount else s.vcount - 1 : Nat) : Int) =
      ((s.vcount : Int) - 2) % s.cfg.maxCount + 1

/-- R161: `VDEC` undoes `VINC` and the reverse, for every voice count. -/
def Obligations.VoiceStepsUndoEachOther : Prop :=
  ∀ s : State, s.Inv → s.opState ≠ .fault →
    (∃ t, exec .vinc s = .next t ∧ exec .vdec t = .next s) ∧
    (∃ t, exec .vdec s = .next t ∧ exec .vinc t = .next s)

/-- R231: in `IDLE` a matching device spec gives `RUN` and changes nothing else, any mismatch raises
`E_NEGOTIATION`; in `RUN` the state check comes first. -/
def Obligations.OpenNegotiatesTheDeviceSpec : Prop :=
  ∀ (s : State) (r : BitVec 32) (b : BitVec 16) (c f : BitVec 4), s.cfg.wf = true →
    let spec := r.toNat = s.cfg.sampleRateHz ∧ c.toNat = 1 ∧ f.toNat = 1 ∧ b.toNat = s.cfg.deviceBufSamples
    (s.opState = .idle → spec → exec (.openDevice r b c f) s = .next { s with opState := .run }) ∧
    (s.opState = .idle → ¬ spec → exec (.openDevice r b c f) s = .next
      { s with opState := .fault, fcause := 6, finfo := encode (.openDevice r b c f), fport := 1 }) ∧
    (s.opState = .run → exec (.openDevice r b c f) s = .next
      { s with opState := .fault, fcause := 3, finfo := encode (.openDevice r b c f), fport := 1 })

/-- R232: in `RUN` `CLOSE` gives `IDLE` and changes nothing else; in `IDLE` it raises `E_STATE`. -/
def Obligations.CloseReturnsToIdle : Prop :=
  ∀ s : State, s.cfg.wf = true →
    (s.opState = .run → exec .closeDevice s = .next { s with opState := .idle }) ∧
    (s.opState = .idle → exec .closeDevice s = .next
      { s with opState := .fault, fcause := 3, finfo := encode .closeDevice, fport := 1 })

/-- R34, R233, R234: in every state, `FAULT` included, `RDSTAT` with a selector of `0 .. 7` answers one
word, the selected value where it fits in 64 bits, and changes no other state; a selector above 7 raises
`E_FIELD` outside `FAULT` and is discarded in it (log entries 8, 10 and 11). -/
def Obligations.RdstatAnswersTheSelectedValue : Prop :=
  ∀ (s : State) (sel : BitVec 4), s.cfg.wf = true →
    let status : Nat := (match s.opState with
        | .idle => 0
        | .run => 1
        | .fault => 2) + 4 * s.envEn.toNat + 8 * s.envSel.toNat + 16 * s.ovf.toNat +
      32 * s.fcause.toNat + 512 * s.fport.toNat
    let selected : Nat := [status, s.cursor, s.vcount, s.height.toNat, s.cdist.toNat, s.finfo.toNat,
      s.cfg.tapeLen, s.cfg.maxCount].getD sel.toNat 0
    (sel.toNat ≤ 7 → ∃ w : Word, exec (.rdstat sel) s = .next { s with responses := s.responses ++ [w] } ∧
      (selected < 2 ^ 64 → w.toNat = selected)) ∧
    (7 < sel.toNat → s.opState ≠ .fault → exec (.rdstat sel) s = .next
      { s with opState := .fault, fcause := 2, finfo := encode (.rdstat sel), fport := 1 }) ∧
    (7 < sel.toNat → s.opState = .fault → exec (.rdstat sel) s = .fault .discarded)

/-! ## Acceptance, faults and the lifecycle -/

/-- R235, row by row, for well-formed commands: what each state answers with `E_STATE`, what it accepts
(an accepted command never reports `E_STATE`), and what `FAULT` discards (log entry 8). -/
def Obligations.AcceptanceByState : Prop :=
  ∀ (s : State) (i : Instr), s.cfg.wf = true → i.wf = true →
    let wrongState : Prop := match i with
      | .pull _ => s.opState = .idle
      | .openDevice _ _ _ _ => s.opState = .run
      | .closeDevice => s.opState = .idle
      | .seth _ => False
      | .setc _ => False
      | .vinc => False
      | .vdec => False
      | .trige => False
      | .trigs => False
      | .rdstat _ => False
    (s.opState = .fault → (∀ sel, i ≠ .rdstat sel) → exec i s = .fault .discarded) ∧
    (s.opState = .fault → (∃ sel, i = .rdstat sel) → ∃ t, exec i s = .next t) ∧
    (wrongState → exec i s = .next
      { s with opState := .fault, fcause := 3, finfo := encode i, fport := portCode i.port }) ∧
    (s.opState ≠ .fault → s.fcause ≠ 3 → ¬ wrongState → ∀ t, exec i s = .next t → t.fcause ≠ 3)

/-- R256, R257: a faulting command changes `STATE`, `FCAUSE`, `FINFO` and `FPORT` only: `FINFO` takes the
whole word that faulted and `FPORT` its port; no byte, no response, no draw, no other register. -/
def Obligations.FaultEntryIsPrecise : Prop :=
  ∀ s t : State, s.opState ≠ .fault → step s = .next t → t.opState = .fault →
    ∃ p w rest c, s.inputs = .command p w :: rest ∧
      t = { s with inputs := rest, opState := .fault, fcause := causeCode c, finfo := w, fport := portCode p }

/-- R258: the one cause reported is the first of opcode, field, state, alignment, length and
negotiation that the word meets; a word that meets none of them executes. -/
def Obligations.FaultPriorityIsFixed : Prop :=
  ∀ (s : State) (p : Port) (w : Word), s.Inv → s.opState ≠ .fault →
    (lookupOp p (opField w) = none → runWord p w s = .next (takeFault .opcode p w s)) ∧
    (∀ o, lookupOp p (opField w) = some o → fieldsLegal o.format w = false →
      runWord p w s = .next (takeFault .field p w s)) ∧
    (∀ n, decode p w = .ok (.pull n) →
      (s.opState = .idle → runWord p w s = .next (takeFault .state p w s)) ∧
      (s.opState = .run → n.toNat % 2 = 1 → runWord p w s = .next (takeFault .align p w s)) ∧
      (s.opState = .run → n.toNat % 2 = 0 → s.cfg.tapeLen < n.toNat →
        runWord p w s = .next (takeFault .length p w s)) ∧
      (s.opState = .run → n.toNat % 2 = 0 → n.toNat ≤ s.cfg.tapeLen →
        ∃ t, runWord p w s = .next t ∧ t.opState = .run ∧ t.fcause = s.fcause)) ∧
    (∀ r b c f, decode p w = .ok (.openDevice r b c f) →
      (s.opState = .run → runWord p w s = .next (takeFault .state p w s)) ∧
      (s.opState = .idle → deviceSpecMatches s.cfg r b c f = false →
        runWord p w s = .next (takeFault .negotiation p w s)) ∧
      (s.opState = .idle → deviceSpecMatches s.cfg r b c f = true →
        runWord p w s = .next { s with opState := .run })) ∧
    (decode p w = .ok .closeDevice →
      (s.opState = .idle → runWord p w s = .next (takeFault .state p w s)) ∧
      (s.opState = .run → runWord p w s = .next { s with opState := .idle })) ∧
    (∀ i, decode p w = .ok i → i ≠ .closeDevice → (∀ n, i ≠ .pull n) →
      (∀ r b c f, i ≠ .openDevice r b c f) →
      ∃ t, runWord p w s = .next t ∧ t.opState = s.opState ∧ t.fcause = s.fcause)

/-- R259, R260: in `FAULT` a well-formed `RDSTAT` on port C is answered, with the fault registers and all
other state kept; every other (port, word) has no step (log entry 8). -/
def Obligations.FaultStateAnswersStatusOnly : Prop :=
  ∀ (s : State) (p : Port) (w : Word) (rest : List Input), s.cfg.wf = true → s.opState = .fault →
    s.inputs = .command p w :: rest →
    (∀ sel, decode p w = .ok (.rdstat sel) →
      ∃ v, step s = .next { s with inputs := rest, responses := s.responses ++ [v] }) ∧
    ((∀ sel, decode p w ≠ .ok (.rdstat sel)) → step s = .fault .discarded)

/-- R236: the lifecycle of every step that ends in a next state. -/
def Obligations.LifecycleTransitions : Prop :=
  ∀ s t : State, step s = .next t →
    ((∃ rest, s.inputs = .reset :: rest) ∧ t.opState = .idle) ∨
    ((∃ w rest r b c f, s.inputs = .command .C w :: rest ∧ decode .C w = .ok (.openDevice r b c f) ∧
        deviceSpecMatches s.cfg r b c f = true) ∧ s.opState = .idle ∧ t.opState = .run) ∨
    ((∃ w rest, s.inputs = .command .C w :: rest ∧ decode .C w = .ok .closeDevice) ∧
        s.opState = .run ∧ t.opState = .idle) ∨
    (s.opState ≠ .fault ∧ t.opState = .fault ∧ t.fcause ≠ 0) ∨
    (t.opState = s.opState ∧ t.fcause = s.fcause)

/-- R262: `FAULT_OUT` is 1 exactly when `STATE = FAULT` (within the invariants, exactly when a cause is
held, R37 item (7)), and no step but reset clears it. -/
def Obligations.FaultOutShowsTheFaultState : Prop :=
  (∀ s : State, s.faultOut = true ↔ s.opState = .fault) ∧
  (∀ s : State, s.Inv → (s.faultOut = true ↔ s.fcause ≠ 0)) ∧
  (∀ s t : State, step s = .next t → s.faultOut = true → (∀ rest, s.inputs ≠ .reset :: rest) →
    t.faultOut = true)

/-- R38, R60, R264: no word on port C reaches the tape, the cursor, a phase, the noise input or the
output stream. -/
def Obligations.PortCLeavesTapeAndCursor : Prop :=
  ∀ (s t : State) (w : Word) (rest : List Input), s.inputs = .command .C w :: rest → step s = .next t →
    t.tape = s.tape ∧ t.cursor = s.cursor ∧ t.ph = s.ph ∧ t.draws = s.draws ∧ t.drawPos = s.drawPos ∧
    t.audioOut = s.audioOut ∧ t.ovf = s.ovf

/-- R38, R264: no word on port A writes a control register, the voice count, the period select or the
response channel. -/
def Obligations.PortALeavesTheControls : Prop :=
  ∀ (s t : State) (w : Word) (rest : List Input), s.inputs = .command .A w :: rest → step s = .next t →
    t.height = s.height ∧ t.cdist = s.cdist ∧ t.vcount = s.vcount ∧ t.envSel = s.envSel ∧
    t.responses = s.responses

/-- R36, R61, R291: no step changes the configuration, and a step takes exactly one input, in order (log
entry 4). -/
def Obligations.ConfigurationAndInputOrderAreKept : Prop :=
  ∀ s t : State, step s = .next t → t.cfg = s.cfg ∧ t.inputs = s.inputs.tail

/-! ## Tape, encoder and pull -/

/-- R180, R181: `PCMENC` is a bijection between `-32768 .. 32767` and byte pairs, read back as
`sext_16(b0 + 256 * b1)`. -/
def Obligations.SampleBytesAreABijection : Prop :=
  (∀ v : Int, -32768 ≤ v → v ≤ 32767 → pcmdec (pcmenc v).1 (pcmenc v).2 = v) ∧
  (∀ b0 b1 : Byte, -32768 ≤ pcmdec b0 b1 ∧ pcmdec b0 b1 ≤ 32767 ∧ pcmenc (pcmdec b0 b1) = (b0, b1) ∧
    pcmdec b0 b1 = sext16 (b0.toNat + 256 * b1.toNat)) ∧
  pcmdec 0x00#8 0x00#8 = 0

/-- R53, R54: `MemRead` returns the bytes from its address on, lowest first, and `MemWrite` sets the
bytes of its run and changes nothing else; past the tape end both stop (the stop is the model's, log
entry 12). -/
def Obligations.TapeAccessPrimitives : Prop :=
  ∀ (s : State) (a n : Nat) (bs : List Byte), Memory.wf s.tape →
    (a + n ≤ s.cfg.tapeLen → ∃ rs, memRead s a n = .ok rs ∧ rs.length = n ∧
      ∀ j < n, rs.getD j 0 = s.tapeByte (a + j)) ∧
    (s.cfg.tapeLen < a + n → memRead s a n = .error .tapeRange) ∧
    (a + bs.length ≤ s.cfg.tapeLen → ∃ t, memWrite s a bs = .ok t ∧ t = { s with tape := t.tape } ∧
      Memory.wf t.tape ∧ ∀ x, t.tapeByte x =
        if a ≤ x ∧ x < a + bs.length then bs.getD (x - a) 0 else s.tapeByte x) ∧
    (s.cfg.tapeLen < a + bs.length → memWrite s a bs = .error .tapeRange)

/-- R182: `TWRITE` stores the bytes of exactly the samples its draws generate, in ascending address
order from `pos` on; every other tape byte, the cursor and every other register are unchanged but for
what generation leaves. -/
def Obligations.TapeWriterStoresItsSamples : Prop :=
  ∀ (s : State) (pos : Nat) (xs : List Draw), s.Inv → pos + 2 * xs.length ≤ s.cfg.tapeLen →
    let g := generate xs s
    ∃ t, twrite pos xs s = .ok t ∧ g.1.length = xs.length ∧
      (∀ j < xs.length, t.tapeByte (pos + 2 * j) = (pcmenc (g.1.getD j 0)).1 ∧
        t.tapeByte (pos + 2 * j + 1) = (pcmenc (g.1.getD j 0)).2) ∧
      (∀ a, a < pos ∨ pos + 2 * xs.length ≤ a → t.tapeByte a = s.tapeByte a) ∧
      t = { s with tape := t.tape, ph := g.2.ph, envPh := g.2.envPh, envEn := g.2.envEn, ovf := g.2.ovf }

/-- R203: for `0 <= n <= L`, `DRAIN(n)` leaves `CURSOR = (c + n) mod L`, even and below `L`, and delivers
exactly `n` bytes, `TAPE[(c + j) mod L]` in order of `j`; nothing else changes. -/
def Obligations.DrainFollowsTheCursorLaw : Prop :=
  ∀ (s : State) (n : Nat), s.Inv → n % 2 = 0 → n ≤ s.cfg.tapeLen →
    ∃ t out, drain n s = .ok t ∧ t = { s with cursor := t.cursor, audioOut := s.audioOut ++ out } ∧
      t.cursor = (s.cursor + n) % s.cfg.tapeLen ∧ t.cursor % 2 = 0 ∧ t.cursor < s.cfg.tapeLen ∧
      out.length = n ∧ ∀ j < n, out.getD j 0 = s.tapeByte ((s.cursor + j) % s.cfg.tapeLen)

/-- R204: `REFILL` overwrites exactly the region `TAPE[(c0 + j) mod L]`, `j < n`, with the bytes of the
samples its draws generate, as one stream across the split; the cursor is not written. -/
def Obligations.RefillRewritesItsRegion : Prop :=
  ∀ (s : State) (c n : Nat) (xs : List Draw), s.Inv → c % 2 = 0 → c < s.cfg.tapeLen →
    2 * xs.length = n → n ≤ s.cfg.tapeLen →
    let g := generate xs s
    ∃ t, refill c n xs s = .ok t ∧
      (∀ j < n, t.tapeByte ((c + j) % s.cfg.tapeLen) = (pcmBytes g.1).getD j 0) ∧
      (∀ a, (∀ j < n, a ≠ (c + j) % s.cfg.tapeLen) → t.tapeByte a = s.tapeByte a) ∧
      t = { s with tape := t.tape, ph := g.2.ph, envPh := g.2.envPh, envEn := g.2.envEn, ovf := g.2.ovf }

/-- R201, R205, R209: a legal `PULL` completes. It delivers the `n` bytes the tape held from the cursor
on, advances the cursor by `n` modulo the tape length, rewrites exactly the addresses it drained with the
bytes of `n / 2` new samples, so that the output stream continued by the tape grows by exactly those
bytes; phases, envelope and `OVF` are what generation leaves, inactive voices hold, one draw per sample
is taken, and nothing else changes (the noise input and the delivered bytes as fields are the model's,
log entries 6 and 7). -/
def Obligations.PullDeliversAndRefills : Prop :=
  ∀ (s : State) (nb : BitVec 32), s.Inv → s.opState = .run → nb.toNat % 2 = 0 →
    nb.toNat ≤ s.cfg.tapeLen →
    let n := nb.toNat
    let g := s.pullGenerated n
    ∃ t, exec (.pull nb) s = .next t ∧
      t.audioOut = s.audioOut ++ (List.range n).map (fun j => s.tapeByte ((s.cursor + j) % s.cfg.tapeLen)) ∧
      t.cursor = (s.cursor + n) % s.cfg.tapeLen ∧
      g.1.length = n / 2 ∧ t.stream = s.stream ++ pcmBytes g.1 ∧
      (∀ j < n, t.tapeByte ((s.cursor + j) % s.cfg.tapeLen) = (pcmBytes g.1).getD j 0) ∧
      (∀ a, (∀ j < n, a ≠ (s.cursor + j) % s.cfg.tapeLen) → t.tapeByte a = s.tapeByte a) ∧
      (∀ i, s.vcount ≤ i → t.ph[i]? = s.ph[i]?) ∧
      t = { s with
        ph := g.2.ph, envPh := g.2.envPh, envEn := g.2.envEn, ovf := g.2.ovf, tape := t.tape,
        cursor := t.cursor, draws := s.draws.drop (n / 2), drawPos := s.drawPos + n / 2,
        audioOut := t.audioOut }

/-- R205, corner case 1: `PULL 0` in `RUN` gives no output and no state change. -/
def Obligations.PullOfNothingChangesNothing : Prop :=
  ∀ s : State, s.cfg.wf = true → s.opState = .run → s.cursor < s.cfg.tapeLen →
    exec (.pull 0) s = .next s

/-- R207, R209: how the audio host sizes its `PULL`s changes nothing: a `PULL` of `n` and one of `m`
bytes end in the very state one `PULL` of `n + m` bytes ends in. -/
def Obligations.TwoPullsAreOne : Prop :=
  ∀ (s : State) (n m k : BitVec 32), s.Inv → s.opState = .run → n.toNat % 2 = 0 → m.toNat % 2 = 0 →
    k.toNat = n.toNat + m.toNat → k.toNat ≤ s.cfg.tapeLen →
    ∃ t u, exec (.pull n) s = .next t ∧ exec (.pull m) t = .next u ∧ exec (.pull k) s = .next u

/-- R207: for any sequence of legal `PULL`s the cursor ends at `(c + n_1 + ... + n_m) mod L`, where it
began if the sum is a multiple of `L`, and exactly `n_1 + ... + n_m` bytes are delivered. -/
def Obligations.PullsLoseNothing : Prop :=
  ∀ (s : State) (ns : List (BitVec 32)) (rest : List Input), s.Inv → s.opState = .run →
    (∀ n ∈ ns, n.toNat % 2 = 0 ∧ n.toNat ≤ s.cfg.tapeLen) →
    s.inputs = ns.map (fun n => Input.command .A (encode (.pull n))) ++ rest →
    let total := (ns.map BitVec.toNat).sum
    ∃ t, Host.Core.run Sys2Proof.core ns.length s = .next t ∧
      t.cursor = (s.cursor + total) % s.cfg.tapeLen ∧ (s.cfg.tapeLen ∣ total → t.cursor = s.cursor) ∧
      t.audioOut.length = s.audioOut.length + total ∧ t.inputs = rest

/-- R113, R185: a legal `PULL` of `n` bytes takes the next `n / 2` draws, the `k`-th for its `k`-th
sample, also when `CDIST = 0`; past the injected draws it takes the free values in order (log entry 6);
every draw lies in `[-1/2, 1/2]`; no word on port C and no faulting word takes one. -/
def Obligations.OneDrawPerSample : Prop :=
  (∀ (s : State) (n : Nat), (s.pullDraws n).length = n / 2 ∧
    ∀ (k : Nat) (d : Draw), (s.pullDraws n)[k]? = some d →
      d = s.draws.getD k (Config.freeDraw (s.drawPos + k)) ∧ -1/2 ≤ d.val ∧ d.val ≤ 1/2) ∧
  (∀ (s t : State) (nb : BitVec 32), s.Inv → exec (.pull nb) s = .next t → t.opState = .run →
    t.draws = s.draws.drop (nb.toNat / 2) ∧ t.drawPos = s.drawPos + nb.toNat / 2) ∧
  (∀ (s t : State) (i : Instr), exec i s = .next t → i.port = .C ∨ t.opState = .fault →
    t.draws = s.draws ∧ t.drawPos = s.drawPos)

/-- R113, R151 corner case 4: with `CDIST = 0` the noise contributes nothing, so the outcome of a legal
`PULL` does not depend on the draws it takes. -/
def Obligations.SilencedNoiseDoesNotLeak : Prop :=
  ∀ (s : State) (nb : BitVec 32) (ds : List Draw) (k : Nat), s.Inv → s.opState = .run →
    nb.toNat % 2 = 0 → nb.toNat ≤ s.cfg.tapeLen → s.cdist = 0 →
    ∃ t, exec (.pull nb) s = .next t ∧
      exec (.pull nb) { s with draws := ds, drawPos := k } =
        .next { t with draws := ds.drop (nb.toNat / 2), drawPos := k + nb.toNat / 2 }

/-- R39's consequence with R130: while the envelope is disabled and the noise scale is 0, every sample a
`PULL` generates is 0: it rewrites the drained region with zero bytes and sets no overflow, though the
active voices' phases advance. -/
def Obligations.SilentUntilTriggered : Prop :=
  ∀ (s : State) (nb : BitVec 32), s.Inv → s.opState = .run → nb.toNat % 2 = 0 →
    nb.toNat ≤ s.cfg.tapeLen → s.envEn = false → s.cdist = 0 →
    ∃ t, exec (.pull nb) s = .next t ∧
      (∀ j < nb.toNat, t.tapeByte ((s.cursor + j) % s.cfg.tapeLen) = 0x00#8) ∧
      (s.pullGenerated nb.toNat).1 = List.replicate (nb.toNat / 2) 0 ∧
      t.ovf = s.ovf ∧ t.envEn = false ∧ t.envPh = 1
end

