-- ==== Sys2Proof/Laws/Decode.lean ====
section
/-! SUPPORT. The fields of an encoded word, and a word put together from its fields (R83, R84). -/

namespace Sys2Proof

/-! ### Fields of a word built from its parts -/

theorem opField_append (op : BitVec 8) (x : BitVec 56) : opField (op ++ x) = op :=
  BitVec.extractLsb'_append_eq_left (a := op) (b := x)

/-- A field below the opcode byte is read from the payload alone. -/
theorem payload_extract (op : BitVec 8) (x : BitVec 56) {start len : Nat} (h : start + len ≤ 56) :
    ((op ++ x : BitVec (8 + 56)) : Word).extractLsb' start len = x.extractLsb' start len :=
  BitVec.extractLsb'_append_eq_of_add_le (xhi := op) (xlo := x) h

theorem opField_encode_pull (n : BitVec 32) : opField (encode (.pull n)) = 0x10#8 :=
  opField_append 0x10#8 (0#24 ++ n)

theorem nbytesField_encode (n : BitVec 32) : nbytesField (encode (.pull n)) = n :=
  (payload_extract 0x10#8 (0#24 ++ n) (by decide)).trans
    (BitVec.extractLsb'_append_eq_right (a := 0#24) (b := n))

theorem opField_encode_open (r : BitVec 32) (b : BitVec 16) (c f : BitVec 4) :
    opField (encode (.openDevice r b c f)) = 0x20#8 :=
  opField_append 0x20#8 (f ++ (c ++ (b ++ r)))

theorem rateField_encode (r : BitVec 32) (b : BitVec 16) (c f : BitVec 4) :
    rateField (encode (.openDevice r b c f)) = r :=
  (payload_extract 0x20#8 (f ++ (c ++ (b ++ r))) (by decide)).trans <|
    (BitVec.extractLsb'_append_eq_of_add_le (xhi := f) (xlo := c ++ (b ++ r)) (by decide)).trans <|
    (BitVec.extractLsb'_append_eq_of_add_le (xhi := c) (xlo := b ++ r) (by decide)).trans <|
    BitVec.extractLsb'_append_eq_right (a := b) (b := r)

theorem bufField_encode (r : BitVec 32) (b : BitVec 16) (c f : BitVec 4) :
    bufField (encode (.openDevice r b c f)) = b :=
  (payload_extract 0x20#8 (f ++ (c ++ (b ++ r))) (by decide)).trans <|
    (BitVec.extractLsb'_append_eq_of_add_le (xhi := f) (xlo := c ++ (b ++ r)) (by decide)).trans <|
    (BitVec.extractLsb'_append_eq_of_add_le (xhi := c) (xlo := b ++ r) (by decide)).trans <|
    BitVec.extractLsb'_append_eq_left (a := b) (b := r)

theorem channelsField_encode (r : BitVec 32) (b : BitVec 16) (c f : BitVec 4) :
    channelsField (encode (.openDevice r b c f)) = c :=
  (payload_extract 0x20#8 (f ++ (c ++ (b ++ r))) (by decide)).trans <|
    (BitVec.extractLsb'_append_eq_of_add_le (xhi := f) (xlo := c ++ (b ++ r)) (by decide)).trans <|
    BitVec.extractLsb'_append_eq_left (a := c) (b := b ++ r)

theorem fmtField_encode (r : BitVec 32) (b : BitVec 16) (c f : BitVec 4) :
    fmtField (encode (.openDevice r b c f)) = f :=
  (payload_extract 0x20#8 (f ++ (c ++ (b ++ r))) (by decide)).trans <|
    BitVec.extractLsb'_append_eq_left (a := f) (b := c ++ (b ++ r))

/-- The code field of a word of format V. -/
theorem codeField_append (op : BitVec 8) (code : BitVec 17) :
    codeField (op ++ (0#39 ++ code)) = code :=
  (payload_extract op (0#39 ++ code) (by decide)).trans
    (BitVec.extractLsb'_append_eq_right (a := 0#39) (b := code))

/-- The selector field of a word of format S. -/
theorem selField_append (op : BitVec 8) (sel : BitVec 4) : selField (op ++ (0#52 ++ sel)) = sel :=
  (payload_extract op (0#52 ++ sel) (by decide)).trans
    (BitVec.extractLsb'_append_eq_right (a := 0#52) (b := sel))

/-! ### Reserved fields of a word built from its parts -/

theorem fieldsLegal_Z_append (op : BitVec 8) : fieldsLegal .Z (op ++ 0#56) = true := by
  have h := payload_extract op 0#56 (start := 0) (len := 56) (by decide)
  simpa [fieldsLegal] using h

theorem fieldsLegal_N_append (op : BitVec 8) (n : BitVec 32) :
    fieldsLegal .N (op ++ (0#24 ++ n)) = true := by
  have h := (payload_extract op (0#24 ++ n) (start := 32) (len := 24) (by decide)).trans
    (BitVec.extractLsb'_append_eq_left (a := 0#24) (b := n))
  simpa [fieldsLegal] using h

theorem fieldsLegal_V_append (op : BitVec 8) (code : BitVec 17) :
    fieldsLegal .V (op ++ (0#39 ++ code)) = codeLegal code := by
  have h := (payload_extract op (0#39 ++ code) (start := 17) (len := 39) (by decide)).trans
    (BitVec.extractLsb'_append_eq_left (a := 0#39) (b := code))
  have hc := codeField_append op code
  simp only [fieldsLegal, hc]
  simp [h]

theorem fieldsLegal_S_append (op : BitVec 8) (sel : BitVec 4) :
    fieldsLegal .S (op ++ (0#52 ++ sel)) = selLegal sel := by
  have h := (payload_extract op (0#52 ++ sel) (start := 4) (len := 52) (by decide)).trans
    (BitVec.extractLsb'_append_eq_left (a := 0#52) (b := sel))
  have hc := selField_append op sel
  simp only [fieldsLegal, hc]
  simp [h]

/-! ### A word from its fields -/

/-- A word is its opcode byte over its payload. -/
theorem opField_append_payload (w : Word) : opField w ++ w.extractLsb' 0 56 = w := by
  have h := BitVec.extractLsb'_append_extractLsb'_eq_extractLsb' (x := w) (start₁ := 0) (len₁ := 56)
    (start₂ := 56) (len₂ := 8) rfl
  exact h.trans (BitVec.extractLsb'_eq_self (x := w))

/-- Two adjacent fields of a word join into one. -/
theorem extract_join (w : Word) (lo l1 l2 : Nat) :
    w.extractLsb' (lo + l1) l2 ++ w.extractLsb' lo l1 = w.extractLsb' lo (l2 + l1) :=
  BitVec.extractLsb'_append_extractLsb'_eq_extractLsb' rfl

/-- A word is its opcode byte over the two fields its payload splits into at bit `lo`. -/
theorem word_join_two (w : Word) (lo hi : Nat) (h : hi + lo = 56) :
    (opField w ++ (w.extractLsb' lo hi ++ w.extractLsb' 0 lo)).cast (by omega) = w := by
  ext i hi'
  rw [BitVec.getElem_cast, BitVec.getElem_append]
  split
  · rw [BitVec.getElem_append]
    split
    · rename_i h2
      simp [BitVec.getElem_eq_testBit_toNat, h2]
    · simp only [BitVec.getElem_extractLsb']
      rw [BitVec.getLsbD_eq_getElem (by omega)]
      congr 1
      omega
  · simp only [opField, BitVec.getElem_extractLsb']
    rw [BitVec.getLsbD_eq_getElem (by omega)]
    congr 1
    omega

/-- A word is its opcode byte over the four fields of format O (R83). -/
theorem word_join_four (w : Word) :
    opField w ++ (fmtField w ++ (channelsField w ++ (bufField w ++ rateField w))) = w := by
  have h1 : bufField w ++ rateField w = w.extractLsb' 0 (16 + 32) := extract_join w 0 32 16
  have h2 : channelsField w ++ w.extractLsb' 0 (16 + 32) = w.extractLsb' 0 (4 + (16 + 32)) :=
    extract_join w 0 48 4
  have h3 : fmtField w ++ w.extractLsb' 0 (4 + (16 + 32)) = w.extractLsb' 0 (4 + (4 + (16 + 32))) :=
    extract_join w 0 52 4
  rw [h1, h2, h3]
  exact opField_append_payload w

/-! ### The decode procedure (R90) -/

/-- The decode procedure with its lookup answered. -/
theorem decode_of_lookup {p : Port} {w : Word} {o : Opcode} (h : lookupOp p (opField w) = some o) :
    decode p w = if fieldsLegal o.format w then .ok (assemble o w) else .error .field := by
  simp only [decode, h]

theorem decode_of_no_lookup {p : Port} {w : Word} (h : lookupOp p (opField w) = none) :
    decode p w = .error .opcode := by
  simp only [decode, h]

/-- When a word decodes, and to what. -/
theorem decode_eq_ok {p : Port} {w : Word} {i : Instr} :
    decode p w = .ok i ↔
      ∃ o, lookupOp p (opField w) = some o ∧ fieldsLegal o.format w = true ∧ i = assemble o w := by
  constructor
  · intro h
    rcases ho : lookupOp p (opField w) with _ | o
    · rw [decode_of_no_lookup ho] at h
      cases h
    · rw [decode_of_lookup ho] at h
      split_ifs at h with hf
      exact ⟨o, rfl, hf, (Except.ok.inj h).symm⟩
  · rintro ⟨o, ho, hf, rfl⟩
    rw [decode_of_lookup ho, if_pos hf]

/-- When a word is rejected, and by which cause. -/
theorem decode_eq_error {p : Port} {w : Word} {c : Cause} :
    decode p w = .error c ↔ (lookupOp p (opField w) = none ∧ c = .opcode) ∨
      ∃ o, lookupOp p (opField w) = some o ∧ ¬ fieldsLegal o.format w = true ∧ c = .field := by
  constructor
  · intro h
    rcases ho : lookupOp p (opField w) with _ | o
    · rw [decode_of_no_lookup ho] at h
      exact .inl ⟨rfl, (Except.error.inj h).symm⟩
    · rw [decode_of_lookup ho] at h
      split_ifs at h with hf
      exact .inr ⟨o, rfl, hf, (Except.error.inj h).symm⟩
  · rintro (⟨ho, rfl⟩ | ⟨o, ho, hf, rfl⟩)
    · exact decode_of_no_lookup ho
    · rw [decode_of_lookup ho, if_neg hf]

/-! ### The opcode map -/

/-- The pairs that are commands (R86, R87). -/
theorem lookupOp_eq_some {p : Port} {op : BitVec 8} {o : Opcode} (h : lookupOp p op = some o) :
    (⟨p, op, o⟩ : OpRow) ∈ opcodeMap := by
  unfold lookupOp at h
  obtain ⟨r, hr, rfl⟩ := Option.map_eq_some_iff.1 h
  have hp := List.find?_some hr
  simp only [Bool.and_eq_true, beq_iff_eq] at hp
  obtain ⟨rfl, rfl⟩ := hp
  exact List.mem_of_find?_eq_some hr

/-- No two rows of the opcode map share a port and an opcode byte. -/
theorem opcodeMap_rows_apart :
    opcodeMap.Pairwise fun r r' => ¬ (r.port = r'.port ∧ r.op = r'.op) := by decide

end Sys2Proof
end

