-- ==== Sys2Proof/Laws/Memory.lean ====
section
/-! SUPPORT. The laws of the tape as plain memory: reads after writes, the canonical form and the
address bound kept by every operation, and equality of canonical memories from equality of reads. -/

namespace Sys2Proof.Machine

@[simp] theorem Memory.read_nil (a : Nat) : Memory.read [] a = Memory.unlisted := rfl

@[simp] theorem Memory.read_cons (b : Nat) (v : Byte) (m : List Host.Cell) (a : Nat) :
    Memory.read ((b, v) :: m) a = if b = a then v else Memory.read m a := rfl

theorem Memory.wf_nil : Memory.wf [] := by simp [Memory.wf]

theorem Memory.wf_cons {b : Nat} {v : Byte} {m : List Host.Cell} :
    Memory.wf ((b, v) :: m) ↔ (∀ c ∈ m, b < c.1) ∧ v ≠ Memory.unlisted ∧ Memory.wf m := by
  simp only [Memory.wf, List.pairwise_cons, List.forall_mem_cons]
  tauto

/-- An address below every listed one reads as unlisted. -/
theorem Memory.read_of_below {m : List Host.Cell} {a : Nat} (h : ∀ c ∈ m, a < c.1) :
    Memory.read m a = Memory.unlisted := by
  induction m with
  | nil => rfl
  | cons c m ih =>
    obtain ⟨b, v⟩ := c
    have hb : a < b := h (b, v) (by simp)
    have : b ≠ a := by omega
    simp [this, ih fun c hc => h c (by simp [hc])]

/-- A listed address of a canonical memory does not read as unlisted. -/
theorem Memory.read_of_mem {m : List Host.Cell} (hm : Memory.wf m) {c : Host.Cell} (hc : c ∈ m) :
    Memory.read m c.1 = c.2 := by
  induction m with
  | nil => cases hc
  | cons d m ih =>
    obtain ⟨b, v⟩ := d
    obtain ⟨hlt, -, hwf⟩ := Memory.wf_cons.1 hm
    rcases List.mem_cons.1 hc with rfl | hc
    · simp
    · have : b ≠ c.1 := Nat.ne_of_lt (hlt c hc)
      simp [this, ih hwf hc]

/-- The entries of a written memory are old entries or the written one. -/
theorem Memory.mem_write {m : List Host.Cell} {a : Nat} {v : Byte} {c : Host.Cell}
    (hc : c ∈ Memory.write m a v) : c ∈ m ∨ (c = (a, v) ∧ v ≠ Memory.unlisted) := by
  induction m with
  | nil =>
    simp only [Memory.write] at hc
    split at hc <;> simp_all
  | cons d m ih =>
    obtain ⟨b, u⟩ := d
    simp only [Memory.write] at hc
    split_ifs at hc <;> simp only [List.mem_cons] at hc ⊢ <;> tauto

/-- Reading one byte after writing one (R14). -/
theorem Memory.read_write {m : List Host.Cell} (hm : Memory.wf m) (a : Nat) (v : Byte) (x : Nat) :
    Memory.read (Memory.write m a v) x = if x = a then v else Memory.read m x := by
  induction m with
  | nil =>
    simp only [Memory.write]
    split_ifs <;> simp_all [eq_comm]
  | cons d m ih =>
    obtain ⟨b, u⟩ := d
    obtain ⟨hlt, -, hwf⟩ := Memory.wf_cons.1 hm
    simp only [Memory.write]
    rcases Nat.lt_trichotomy a b with h | rfl | h
    · rw [if_pos h]
      by_cases hx : x = a
      · subst hx
        have hb : b ≠ x := by omega
        have hr : Memory.read m x = Memory.unlisted :=
          Memory.read_of_below fun c hc => h.trans (hlt c hc)
        by_cases hv : v = Memory.unlisted <;> simp [hv, hb, hr]
      · by_cases hv : v = Memory.unlisted <;> simp [hv, hx, Ne.symm hx]
    · rw [if_neg (Nat.lt_irrefl a), if_pos rfl]
      by_cases hx : x = a
      · subst hx
        by_cases hv : v = Memory.unlisted
        · simp [hv, Memory.read_of_below hlt]
        · simp [hv]
      · by_cases hv : v = Memory.unlisted <;> simp [hv, hx, Ne.symm hx]
    · rw [if_neg (by omega), if_neg (by omega)]
      simp only [Memory.read_cons, ih hwf]
      by_cases hb : b = x
      · have : x ≠ a := by omega
        simp [hb, this]
      · simp [hb]

/-- A write keeps the canonical form. -/
theorem Memory.write_wf {m : List Host.Cell} (hm : Memory.wf m) (a : Nat) (v : Byte) :
    Memory.wf (Memory.write m a v) := by
  induction m with
  | nil =>
    simp only [Memory.write]
    split_ifs with h
    · exact Memory.wf_nil
    · exact Memory.wf_cons.2 ⟨by simp, h, Memory.wf_nil⟩
  | cons d m ih =>
    obtain ⟨b, u⟩ := d
    obtain ⟨hlt, hu, hwf⟩ := Memory.wf_cons.1 hm
    simp only [Memory.write]
    split_ifs with h1 hv h2 hv
    · exact hm
    · refine Memory.wf_cons.2 ⟨?_, hv, hm⟩
      intro c hc
      rcases List.mem_cons.1 hc with rfl | hc
      · exact h1
      · exact h1.trans (hlt c hc)
    · exact hwf
    · subst h2
      exact Memory.wf_cons.2 ⟨hlt, hv, hwf⟩
    · refine Memory.wf_cons.2 ⟨?_, hu, ih hwf⟩
      intro c hc
      rcases Memory.mem_write hc with hc | ⟨rfl, -⟩
      · exact hlt c hc
      · change b < a
        omega

/-- A run of writes keeps the canonical form. -/
theorem Memory.writeRun_wf {m : List Host.Cell} (hm : Memory.wf m) (a : Nat) (bs : List Byte) :
    Memory.wf (Memory.writeRun m a bs) := by
  induction bs generalizing m a with
  | nil => exact hm
  | cons b bs ih => exact ih (Memory.write_wf hm a b) (a + 1)

/-- Reading one byte after writing a run: inside the run its byte, outside it what was there. -/
theorem Memory.read_writeRun {m : List Host.Cell} (hm : Memory.wf m) (a : Nat) (bs : List Byte)
    (x : Nat) : Memory.read (Memory.writeRun m a bs) x =
      if a ≤ x ∧ x < a + bs.length then bs.getD (x - a) 0 else Memory.read m x := by
  induction bs generalizing m a with
  | nil => simp [Memory.writeRun]
  | cons b bs ih =>
    rw [Memory.writeRun, ih (Memory.write_wf hm a b), Memory.read_write hm]
    rcases Nat.lt_trichotomy x a with h | rfl | h
    · rw [if_neg (by omega), if_neg (by omega), if_neg (by simp; omega)]
    · simp
    · have hx : x - a = (x - (a + 1)) + 1 := by omega
      rw [if_neg (show x ≠ a by omega)]
      by_cases hin : x < a + 1 + bs.length
      · rw [if_pos ⟨by omega, hin⟩, if_pos ⟨by omega, by simp; omega⟩, hx, List.getD_cons_succ]
      · rw [if_neg (by omega), if_neg (by simp; omega)]

/-- A run of writes lists no address outside the old ones and the run. -/
theorem Memory.mem_writeRun {m : List Host.Cell} {a : Nat} {bs : List Byte} {c : Host.Cell}
    (hc : c ∈ Memory.writeRun m a bs) : c ∈ m ∨ (a ≤ c.1 ∧ c.1 < a + bs.length) := by
  induction bs generalizing m a with
  | nil => exact .inl hc
  | cons b bs ih =>
    rcases ih hc with h | h
    · rcases Memory.mem_write h with h | ⟨rfl, -⟩
      · exact .inl h
      · exact .inr ⟨Nat.le_refl a, by simp⟩
    · exact .inr ⟨by omega, by simp only [List.length_cons]; omega⟩

/-- Canonical memories that read alike are equal. -/
theorem Memory.ext_of_read {m n : List Host.Cell} (hm : Memory.wf m) (hn : Memory.wf n)
    (h : ∀ a, Memory.read m a = Memory.read n a) : m = n := by
  induction m generalizing n with
  | nil =>
    cases n with
    | nil => rfl
    | cons d n =>
      exact absurd ((h d.1).symm.trans rfl)
        ((Memory.read_of_mem hn (List.mem_cons_self ..)).symm ▸ (hn.2 d (List.mem_cons_self ..)))
  | cons c m ih =>
    cases n with
    | nil =>
      exact absurd ((h c.1).trans rfl)
        ((Memory.read_of_mem hm (List.mem_cons_self ..)).symm ▸ (hm.2 c (List.mem_cons_self ..)))
    | cons d n =>
      obtain ⟨a, u⟩ := c
      obtain ⟨b, v⟩ := d
      obtain ⟨hlt, hu, hwf⟩ := Memory.wf_cons.1 hm
      obtain ⟨hlt', hv, hwf'⟩ := Memory.wf_cons.1 hn
      have hab : a = b := by
        rcases Nat.lt_trichotomy a b with hl | he | hl
        · have h2 : Memory.read ((b, v) :: n) a = Memory.unlisted :=
            Memory.read_of_below fun c hc => by
              rcases List.mem_cons.1 hc with rfl | hc
              · exact hl
              · exact hl.trans (hlt' c hc)
          exact absurd (by simpa using (h a).trans h2) hu
        · exact he
        · have h2 : Memory.read ((a, u) :: m) b = Memory.unlisted :=
            Memory.read_of_below fun c hc => by
              rcases List.mem_cons.1 hc with rfl | hc
              · exact hl
              · exact hl.trans (hlt c hc)
          exact absurd (by simpa using (h b).symm.trans h2) hv
      subst hab
      have huv : u = v := by simpa using h a
      subst huv
      congr 1
      refine ih hwf hwf' fun x => ?_
      by_cases hx : a = x
      · subst hx
        rw [Memory.read_of_below hlt, Memory.read_of_below hlt']
      · simpa [hx] using h x

end Sys2Proof.Machine
end

