-- ==== Sys2Proof/Laws/State.lean ====
section
/-! SUPPORT. One lemma per field per named update of the state, true by unfolding; the reads that see
only some fields; the configuration's well-formedness as R9 writes it. -/

namespace Sys2Proof.Machine

/-! ### `outPush` -/

@[simp] theorem outPush_ph (bs : List Byte) (s : State) : (outPush bs s).ph = s.ph := rfl
@[simp] theorem outPush_vcount (bs : List Byte) (s : State) : (outPush bs s).vcount = s.vcount := rfl
@[simp] theorem outPush_envPh (bs : List Byte) (s : State) : (outPush bs s).envPh = s.envPh := rfl
@[simp] theorem outPush_envEn (bs : List Byte) (s : State) : (outPush bs s).envEn = s.envEn := rfl
@[simp] theorem outPush_envSel (bs : List Byte) (s : State) : (outPush bs s).envSel = s.envSel := rfl
@[simp] theorem outPush_height (bs : List Byte) (s : State) : (outPush bs s).height = s.height := rfl
@[simp] theorem outPush_cdist (bs : List Byte) (s : State) : (outPush bs s).cdist = s.cdist := rfl
@[simp] theorem outPush_tape (bs : List Byte) (s : State) : (outPush bs s).tape = s.tape := rfl
@[simp] theorem outPush_cursor (bs : List Byte) (s : State) : (outPush bs s).cursor = s.cursor := rfl
@[simp] theorem outPush_opState (bs : List Byte) (s : State) : (outPush bs s).opState = s.opState := rfl
@[simp] theorem outPush_fcause (bs : List Byte) (s : State) : (outPush bs s).fcause = s.fcause := rfl
@[simp] theorem outPush_finfo (bs : List Byte) (s : State) : (outPush bs s).finfo = s.finfo := rfl
@[simp] theorem outPush_fport (bs : List Byte) (s : State) : (outPush bs s).fport = s.fport := rfl
@[simp] theorem outPush_ovf (bs : List Byte) (s : State) : (outPush bs s).ovf = s.ovf := rfl
@[simp] theorem outPush_cfg (bs : List Byte) (s : State) : (outPush bs s).cfg = s.cfg := rfl
@[simp] theorem outPush_inputs (bs : List Byte) (s : State) : (outPush bs s).inputs = s.inputs := rfl
@[simp] theorem outPush_draws (bs : List Byte) (s : State) : (outPush bs s).draws = s.draws := rfl
@[simp] theorem outPush_drawPos (bs : List Byte) (s : State) : (outPush bs s).drawPos = s.drawPos := rfl
@[simp] theorem outPush_audioOut (bs : List Byte) (s : State) : (outPush bs s).audioOut = s.audioOut ++ bs := rfl
@[simp] theorem outPush_responses (bs : List Byte) (s : State) : (outPush bs s).responses = s.responses := rfl

/-! ### `respond` -/

@[simp] theorem respond_ph (w : Word) (s : State) : (respond w s).ph = s.ph := rfl
@[simp] theorem respond_vcount (w : Word) (s : State) : (respond w s).vcount = s.vcount := rfl
@[simp] theorem respond_envPh (w : Word) (s : State) : (respond w s).envPh = s.envPh := rfl
@[simp] theorem respond_envEn (w : Word) (s : State) : (respond w s).envEn = s.envEn := rfl
@[simp] theorem respond_envSel (w : Word) (s : State) : (respond w s).envSel = s.envSel := rfl
@[simp] theorem respond_height (w : Word) (s : State) : (respond w s).height = s.height := rfl
@[simp] theorem respond_cdist (w : Word) (s : State) : (respond w s).cdist = s.cdist := rfl
@[simp] theorem respond_tape (w : Word) (s : State) : (respond w s).tape = s.tape := rfl
@[simp] theorem respond_cursor (w : Word) (s : State) : (respond w s).cursor = s.cursor := rfl
@[simp] theorem respond_opState (w : Word) (s : State) : (respond w s).opState = s.opState := rfl
@[simp] theorem respond_fcause (w : Word) (s : State) : (respond w s).fcause = s.fcause := rfl
@[simp] theorem respond_finfo (w : Word) (s : State) : (respond w s).finfo = s.finfo := rfl
@[simp] theorem respond_fport (w : Word) (s : State) : (respond w s).fport = s.fport := rfl
@[simp] theorem respond_ovf (w : Word) (s : State) : (respond w s).ovf = s.ovf := rfl
@[simp] theorem respond_cfg (w : Word) (s : State) : (respond w s).cfg = s.cfg := rfl
@[simp] theorem respond_inputs (w : Word) (s : State) : (respond w s).inputs = s.inputs := rfl
@[simp] theorem respond_draws (w : Word) (s : State) : (respond w s).draws = s.draws := rfl
@[simp] theorem respond_drawPos (w : Word) (s : State) : (respond w s).drawPos = s.drawPos := rfl
@[simp] theorem respond_audioOut (w : Word) (s : State) : (respond w s).audioOut = s.audioOut := rfl
@[simp] theorem respond_responses (w : Word) (s : State) : (respond w s).responses = s.responses ++ [w] := rfl

/-! ### `writePhase` -/

@[simp] theorem writePhase_ph (s : State) (i : Nat) (p : Rat) : (writePhase s i p).ph = s.ph.set i p := rfl
@[simp] theorem writePhase_vcount (s : State) (i : Nat) (p : Rat) : (writePhase s i p).vcount = s.vcount := rfl
@[simp] theorem writePhase_envPh (s : State) (i : Nat) (p : Rat) : (writePhase s i p).envPh = s.envPh := rfl
@[simp] theorem writePhase_envEn (s : State) (i : Nat) (p : Rat) : (writePhase s i p).envEn = s.envEn := rfl
@[simp] theorem writePhase_envSel (s : State) (i : Nat) (p : Rat) : (writePhase s i p).envSel = s.envSel := rfl
@[simp] theorem writePhase_height (s : State) (i : Nat) (p : Rat) : (writePhase s i p).height = s.height := rfl
@[simp] theorem writePhase_cdist (s : State) (i : Nat) (p : Rat) : (writePhase s i p).cdist = s.cdist := rfl
@[simp] theorem writePhase_tape (s : State) (i : Nat) (p : Rat) : (writePhase s i p).tape = s.tape := rfl
@[simp] theorem writePhase_cursor (s : State) (i : Nat) (p : Rat) : (writePhase s i p).cursor = s.cursor := rfl
@[simp] theorem writePhase_opState (s : State) (i : Nat) (p : Rat) : (writePhase s i p).opState = s.opState := rfl
@[simp] theorem writePhase_fcause (s : State) (i : Nat) (p : Rat) : (writePhase s i p).fcause = s.fcause := rfl
@[simp] theorem writePhase_finfo (s : State) (i : Nat) (p : Rat) : (writePhase s i p).finfo = s.finfo := rfl
@[simp] theorem writePhase_fport (s : State) (i : Nat) (p : Rat) : (writePhase s i p).fport = s.fport := rfl
@[simp] theorem writePhase_ovf (s : State) (i : Nat) (p : Rat) : (writePhase s i p).ovf = s.ovf := rfl
@[simp] theorem writePhase_cfg (s : State) (i : Nat) (p : Rat) : (writePhase s i p).cfg = s.cfg := rfl
@[simp] theorem writePhase_inputs (s : State) (i : Nat) (p : Rat) : (writePhase s i p).inputs = s.inputs := rfl
@[simp] theorem writePhase_draws (s : State) (i : Nat) (p : Rat) : (writePhase s i p).draws = s.draws := rfl
@[simp] theorem writePhase_drawPos (s : State) (i : Nat) (p : Rat) : (writePhase s i p).drawPos = s.drawPos := rfl
@[simp] theorem writePhase_audioOut (s : State) (i : Nat) (p : Rat) : (writePhase s i p).audioOut = s.audioOut := rfl
@[simp] theorem writePhase_responses (s : State) (i : Nat) (p : Rat) : (writePhase s i p).responses = s.responses := rfl

/-! ### `rearm` -/

@[simp] theorem rearm_ph (b : Bool) (s : State) : (rearm b s).ph = s.ph := rfl
@[simp] theorem rearm_vcount (b : Bool) (s : State) : (rearm b s).vcount = s.vcount := rfl
@[simp] theorem rearm_envPh (b : Bool) (s : State) : (rearm b s).envPh = 0 := rfl
@[simp] theorem rearm_envEn (b : Bool) (s : State) : (rearm b s).envEn = true := rfl
@[simp] theorem rearm_envSel (b : Bool) (s : State) : (rearm b s).envSel = b := rfl
@[simp] theorem rearm_height (b : Bool) (s : State) : (rearm b s).height = s.height := rfl
@[simp] theorem rearm_cdist (b : Bool) (s : State) : (rearm b s).cdist = s.cdist := rfl
@[simp] theorem rearm_tape (b : Bool) (s : State) : (rearm b s).tape = s.tape := rfl
@[simp] theorem rearm_cursor (b : Bool) (s : State) : (rearm b s).cursor = s.cursor := rfl
@[simp] theorem rearm_opState (b : Bool) (s : State) : (rearm b s).opState = s.opState := rfl
@[simp] theorem rearm_fcause (b : Bool) (s : State) : (rearm b s).fcause = s.fcause := rfl
@[simp] theorem rearm_finfo (b : Bool) (s : State) : (rearm b s).finfo = s.finfo := rfl
@[simp] theorem rearm_fport (b : Bool) (s : State) : (rearm b s).fport = s.fport := rfl
@[simp] theorem rearm_ovf (b : Bool) (s : State) : (rearm b s).ovf = s.ovf := rfl
@[simp] theorem rearm_cfg (b : Bool) (s : State) : (rearm b s).cfg = s.cfg := rfl
@[simp] theorem rearm_inputs (b : Bool) (s : State) : (rearm b s).inputs = s.inputs := rfl
@[simp] theorem rearm_draws (b : Bool) (s : State) : (rearm b s).draws = s.draws := rfl
@[simp] theorem rearm_drawPos (b : Bool) (s : State) : (rearm b s).drawPos = s.drawPos := rfl
@[simp] theorem rearm_audioOut (b : Bool) (s : State) : (rearm b s).audioOut = s.audioOut := rfl
@[simp] theorem rearm_responses (b : Bool) (s : State) : (rearm b s).responses = s.responses := rfl

/-! ### `takeFault` -/

@[simp] theorem takeFault_ph (c : Cause) (p : Port) (w : Word) (s : State) : (takeFault c p w s).ph = s.ph := rfl
@[simp] theorem takeFault_vcount (c : Cause) (p : Port) (w : Word) (s : State) : (takeFault c p w s).vcount = s.vcount := rfl
@[simp] theorem takeFault_envPh (c : Cause) (p : Port) (w : Word) (s : State) : (takeFault c p w s).envPh = s.envPh := rfl
@[simp] theorem takeFault_envEn (c : Cause) (p : Port) (w : Word) (s : State) : (takeFault c p w s).envEn = s.envEn := rfl
@[simp] theorem takeFault_envSel (c : Cause) (p : Port) (w : Word) (s : State) : (takeFault c p w s).envSel = s.envSel := rfl
@[simp] theorem takeFault_height (c : Cause) (p : Port) (w : Word) (s : State) : (takeFault c p w s).height = s.height := rfl
@[simp] theorem takeFault_cdist (c : Cause) (p : Port) (w : Word) (s : State) : (takeFault c p w s).cdist = s.cdist := rfl
@[simp] theorem takeFault_tape (c : Cause) (p : Port) (w : Word) (s : State) : (takeFault c p w s).tape = s.tape := rfl
@[simp] theorem takeFault_cursor (c : Cause) (p : Port) (w : Word) (s : State) : (takeFault c p w s).cursor = s.cursor := rfl
@[simp] theorem takeFault_opState (c : Cause) (p : Port) (w : Word) (s : State) : (takeFault c p w s).opState = .fault := rfl
@[simp] theorem takeFault_fcause (c : Cause) (p : Port) (w : Word) (s : State) : (takeFault c p w s).fcause = causeCode c := rfl
@[simp] theorem takeFault_finfo (c : Cause) (p : Port) (w : Word) (s : State) : (takeFault c p w s).finfo = w := rfl
@[simp] theorem takeFault_fport (c : Cause) (p : Port) (w : Word) (s : State) : (takeFault c p w s).fport = portCode p := rfl
@[simp] theorem takeFault_ovf (c : Cause) (p : Port) (w : Word) (s : State) : (takeFault c p w s).ovf = s.ovf := rfl
@[simp] theorem takeFault_cfg (c : Cause) (p : Port) (w : Word) (s : State) : (takeFault c p w s).cfg = s.cfg := rfl
@[simp] theorem takeFault_inputs (c : Cause) (p : Port) (w : Word) (s : State) : (takeFault c p w s).inputs = s.inputs := rfl
@[simp] theorem takeFault_draws (c : Cause) (p : Port) (w : Word) (s : State) : (takeFault c p w s).draws = s.draws := rfl
@[simp] theorem takeFault_drawPos (c : Cause) (p : Port) (w : Word) (s : State) : (takeFault c p w s).drawPos = s.drawPos := rfl
@[simp] theorem takeFault_audioOut (c : Cause) (p : Port) (w : Word) (s : State) : (takeFault c p w s).audioOut = s.audioOut := rfl
@[simp] theorem takeFault_responses (c : Cause) (p : Port) (w : Word) (s : State) : (takeFault c p w s).responses = s.responses := rfl

/-! ### `present` -/

@[simp] theorem present_ph (p : Port) (w : Word) (s : State) : (present p w s).ph = s.ph := rfl
@[simp] theorem present_vcount (p : Port) (w : Word) (s : State) : (present p w s).vcount = s.vcount := rfl
@[simp] theorem present_envPh (p : Port) (w : Word) (s : State) : (present p w s).envPh = s.envPh := rfl
@[simp] theorem present_envEn (p : Port) (w : Word) (s : State) : (present p w s).envEn = s.envEn := rfl
@[simp] theorem present_envSel (p : Port) (w : Word) (s : State) : (present p w s).envSel = s.envSel := rfl
@[simp] theorem present_height (p : Port) (w : Word) (s : State) : (present p w s).height = s.height := rfl
@[simp] theorem present_cdist (p : Port) (w : Word) (s : State) : (present p w s).cdist = s.cdist := rfl
@[simp] theorem present_tape (p : Port) (w : Word) (s : State) : (present p w s).tape = s.tape := rfl
@[simp] theorem present_cursor (p : Port) (w : Word) (s : State) : (present p w s).cursor = s.cursor := rfl
@[simp] theorem present_opState (p : Port) (w : Word) (s : State) : (present p w s).opState = s.opState := rfl
@[simp] theorem present_fcause (p : Port) (w : Word) (s : State) : (present p w s).fcause = s.fcause := rfl
@[simp] theorem present_finfo (p : Port) (w : Word) (s : State) : (present p w s).finfo = s.finfo := rfl
@[simp] theorem present_fport (p : Port) (w : Word) (s : State) : (present p w s).fport = s.fport := rfl
@[simp] theorem present_ovf (p : Port) (w : Word) (s : State) : (present p w s).ovf = s.ovf := rfl
@[simp] theorem present_cfg (p : Port) (w : Word) (s : State) : (present p w s).cfg = s.cfg := rfl
@[simp] theorem present_inputs (p : Port) (w : Word) (s : State) : (present p w s).inputs = .command p w :: s.inputs := rfl
@[simp] theorem present_draws (p : Port) (w : Word) (s : State) : (present p w s).draws = s.draws := rfl
@[simp] theorem present_drawPos (p : Port) (w : Word) (s : State) : (present p w s).drawPos = s.drawPos := rfl
@[simp] theorem present_audioOut (p : Port) (w : Word) (s : State) : (present p w s).audioOut = s.audioOut := rfl
@[simp] theorem present_responses (p : Port) (w : Word) (s : State) : (present p w s).responses = s.responses := rfl

/-! ### `State.resetOf` -/

@[simp] theorem State.resetOf_ph (c : Cfg) : (State.resetOf c).ph = List.replicate c.maxCount 0 := rfl
@[simp] theorem State.resetOf_vcount (c : Cfg) : (State.resetOf c).vcount = 1 := rfl
@[simp] theorem State.resetOf_envPh (c : Cfg) : (State.resetOf c).envPh = 1 := rfl
@[simp] theorem State.resetOf_envEn (c : Cfg) : (State.resetOf c).envEn = false := rfl
@[simp] theorem State.resetOf_envSel (c : Cfg) : (State.resetOf c).envSel = false := rfl
@[simp] theorem State.resetOf_height (c : Cfg) : (State.resetOf c).height = 0 := rfl
@[simp] theorem State.resetOf_cdist (c : Cfg) : (State.resetOf c).cdist = 0 := rfl
@[simp] theorem State.resetOf_tape (c : Cfg) : (State.resetOf c).tape = [] := rfl
@[simp] theorem State.resetOf_cursor (c : Cfg) : (State.resetOf c).cursor = 0 := rfl
@[simp] theorem State.resetOf_opState (c : Cfg) : (State.resetOf c).opState = .idle := rfl
@[simp] theorem State.resetOf_fcause (c : Cfg) : (State.resetOf c).fcause = 0 := rfl
@[simp] theorem State.resetOf_finfo (c : Cfg) : (State.resetOf c).finfo = 0 := rfl
@[simp] theorem State.resetOf_fport (c : Cfg) : (State.resetOf c).fport = 0 := rfl
@[simp] theorem State.resetOf_ovf (c : Cfg) : (State.resetOf c).ovf = false := rfl
@[simp] theorem State.resetOf_cfg (c : Cfg) : (State.resetOf c).cfg = c := rfl
@[simp] theorem State.resetOf_inputs (c : Cfg) : (State.resetOf c).inputs = [] := rfl
@[simp] theorem State.resetOf_draws (c : Cfg) : (State.resetOf c).draws = [] := rfl
@[simp] theorem State.resetOf_drawPos (c : Cfg) : (State.resetOf c).drawPos = 0 := rfl
@[simp] theorem State.resetOf_audioOut (c : Cfg) : (State.resetOf c).audioOut = [] := rfl
@[simp] theorem State.resetOf_responses (c : Cfg) : (State.resetOf c).responses = [] := rfl

/-! ### `takeReset` -/

@[simp] theorem takeReset_ph (s : State) : (takeReset s).ph = List.replicate s.cfg.maxCount 0 := rfl
@[simp] theorem takeReset_vcount (s : State) : (takeReset s).vcount = 1 := rfl
@[simp] theorem takeReset_envPh (s : State) : (takeReset s).envPh = 1 := rfl
@[simp] theorem takeReset_envEn (s : State) : (takeReset s).envEn = false := rfl
@[simp] theorem takeReset_envSel (s : State) : (takeReset s).envSel = false := rfl
@[simp] theorem takeReset_height (s : State) : (takeReset s).height = 0 := rfl
@[simp] theorem takeReset_cdist (s : State) : (takeReset s).cdist = 0 := rfl
@[simp] theorem takeReset_tape (s : State) : (takeReset s).tape = [] := rfl
@[simp] theorem takeReset_cursor (s : State) : (takeReset s).cursor = 0 := rfl
@[simp] theorem takeReset_opState (s : State) : (takeReset s).opState = .idle := rfl
@[simp] theorem takeReset_fcause (s : State) : (takeReset s).fcause = 0 := rfl
@[simp] theorem takeReset_finfo (s : State) : (takeReset s).finfo = 0 := rfl
@[simp] theorem takeReset_fport (s : State) : (takeReset s).fport = 0 := rfl
@[simp] theorem takeReset_ovf (s : State) : (takeReset s).ovf = false := rfl
@[simp] theorem takeReset_cfg (s : State) : (takeReset s).cfg = s.cfg := rfl
@[simp] theorem takeReset_inputs (s : State) : (takeReset s).inputs = s.inputs := rfl
@[simp] theorem takeReset_draws (s : State) : (takeReset s).draws = s.draws := rfl
@[simp] theorem takeReset_drawPos (s : State) : (takeReset s).drawPos = s.drawPos := rfl
@[simp] theorem takeReset_audioOut (s : State) : (takeReset s).audioOut = [] := rfl
@[simp] theorem takeReset_responses (s : State) : (takeReset s).responses = [] := rfl

/-! ### `State.side`: the fields that sample generation neither reads nor writes -/

/-- The state with another tape, cursor, noise input and output stream. -/
def State.side (s : State) (m : List Host.Cell) (c : Nat) (d : List Draw) (k : Nat) (o : List Byte) :
    State :=
  { s with tape := m, cursor := c, draws := d, drawPos := k, audioOut := o }

@[simp] theorem State.side_ph (s : State) (m : List Host.Cell) (c : Nat) (d : List Draw) (k : Nat)
    (o : List Byte) : (s.side m c d k o).ph = s.ph := rfl
@[simp] theorem State.side_vcount (s : State) (m : List Host.Cell) (c : Nat) (d : List Draw) (k : Nat)
    (o : List Byte) : (s.side m c d k o).vcount = s.vcount := rfl
@[simp] theorem State.side_envPh (s : State) (m : List Host.Cell) (c : Nat) (d : List Draw) (k : Nat)
    (o : List Byte) : (s.side m c d k o).envPh = s.envPh := rfl
@[simp] theorem State.side_envEn (s : State) (m : List Host.Cell) (c : Nat) (d : List Draw) (k : Nat)
    (o : List Byte) : (s.side m c d k o).envEn = s.envEn := rfl
@[simp] theorem State.side_envSel (s : State) (m : List Host.Cell) (c : Nat) (d : List Draw) (k : Nat)
    (o : List Byte) : (s.side m c d k o).envSel = s.envSel := rfl
@[simp] theorem State.side_height (s : State) (m : List Host.Cell) (c : Nat) (d : List Draw) (k : Nat)
    (o : List Byte) : (s.side m c d k o).height = s.height := rfl
@[simp] theorem State.side_cdist (s : State) (m : List Host.Cell) (c : Nat) (d : List Draw) (k : Nat)
    (o : List Byte) : (s.side m c d k o).cdist = s.cdist := rfl
@[simp] theorem State.side_tape (s : State) (m : List Host.Cell) (c : Nat) (d : List Draw) (k : Nat)
    (o : List Byte) : (s.side m c d k o).tape = m := rfl
@[simp] theorem State.side_cursor (s : State) (m : List Host.Cell) (c : Nat) (d : List Draw) (k : Nat)
    (o : List Byte) : (s.side m c d k o).cursor = c := rfl
@[simp] theorem State.side_opState (s : State) (m : List Host.Cell) (c : Nat) (d : List Draw) (k : Nat)
    (o : List Byte) : (s.side m c d k o).opState = s.opState := rfl
@[simp] theorem State.side_fcause (s : State) (m : List Host.Cell) (c : Nat) (d : List Draw) (k : Nat)
    (o : List Byte) : (s.side m c d k o).fcause = s.fcause := rfl
@[simp] theorem State.side_finfo (s : State) (m : List Host.Cell) (c : Nat) (d : List Draw) (k : Nat)
    (o : List Byte) : (s.side m c d k o).finfo = s.finfo := rfl
@[simp] theorem State.side_fport (s : State) (m : List Host.Cell) (c : Nat) (d : List Draw) (k : Nat)
    (o : List Byte) : (s.side m c d k o).fport = s.fport := rfl
@[simp] theorem State.side_ovf (s : State) (m : List Host.Cell) (c : Nat) (d : List Draw) (k : Nat)
    (o : List Byte) : (s.side m c d k o).ovf = s.ovf := rfl
@[simp] theorem State.side_cfg (s : State) (m : List Host.Cell) (c : Nat) (d : List Draw) (k : Nat)
    (o : List Byte) : (s.side m c d k o).cfg = s.cfg := rfl
@[simp] theorem State.side_inputs (s : State) (m : List Host.Cell) (c : Nat) (d : List Draw) (k : Nat)
    (o : List Byte) : (s.side m c d k o).inputs = s.inputs := rfl
@[simp] theorem State.side_draws (s : State) (m : List Host.Cell) (c : Nat) (d : List Draw) (k : Nat)
    (o : List Byte) : (s.side m c d k o).draws = d := rfl
@[simp] theorem State.side_drawPos (s : State) (m : List Host.Cell) (c : Nat) (d : List Draw) (k : Nat)
    (o : List Byte) : (s.side m c d k o).drawPos = k := rfl
@[simp] theorem State.side_audioOut (s : State) (m : List Host.Cell) (c : Nat) (d : List Draw) (k : Nat)
    (o : List Byte) : (s.side m c d k o).audioOut = o := rfl
@[simp] theorem State.side_responses (s : State) (m : List Host.Cell) (c : Nat) (d : List Draw) (k : Nat)
    (o : List Byte) : (s.side m c d k o).responses = s.responses := rfl

theorem State.side_self (s : State) : s.side s.tape s.cursor s.draws s.drawPos s.audioOut = s := rfl

@[simp] theorem State.side_side (s : State) (m m' : List Host.Cell) (c c' : Nat) (d d' : List Draw)
    (k k' : Nat) (o o' : List Byte) : (s.side m c d k o).side m' c' d' k' o' = s.side m' c' d' k' o' := rfl

/-! ### Reads -/

theorem State.tapeByte_eq_of_tape {s t : State} (h : t.tape = s.tape) (a : Nat) :
    t.tapeByte a = s.tapeByte a := by
  simp [State.tapeByte, h]

@[simp] theorem outPush_tapeByte (bs : List Byte) (s : State) (a : Nat) :
    (outPush bs s).tapeByte a = s.tapeByte a := rfl
@[simp] theorem respond_tapeByte (w : Word) (s : State) (a : Nat) :
    (respond w s).tapeByte a = s.tapeByte a := rfl
@[simp] theorem writePhase_tapeByte (s : State) (i : Nat) (p : Rat) (a : Nat) :
    (writePhase s i p).tapeByte a = s.tapeByte a := rfl
@[simp] theorem takeFault_tapeByte (c : Cause) (p : Port) (w : Word) (s : State) (a : Nat) :
    (takeFault c p w s).tapeByte a = s.tapeByte a := rfl
@[simp] theorem State.resetOf_tapeByte (c : Cfg) (a : Nat) : (State.resetOf c).tapeByte a = 0x00#8 := rfl

end Sys2Proof.Machine

namespace Sys2Proof

/-- R9 as written: every parameter in its type, and no voice faster than the sample rate. -/
theorem Cfg.wf_iff (c : Cfg) :
    c.wf = true ↔ 0 < c.sampleRateHz ∧ 0 < c.deviceBufSamples ∧ 2 ≤ c.tapeLen ∧ c.tapeLen % 2 = 0 ∧
      0 < c.aMax ∧ 0 < c.freqBaseHz ∧ 1 ≤ c.maxCount ∧ 0 < c.envPeriodS ∧ 0 < c.susPeriodS ∧
      c.freqBaseHz * c.maxCount ≤ c.sampleRateHz := by
  have hd : (0 : Rat) < c.freqBaseHz.den := by exact_mod_cast c.freqBaseHz.den_pos
  have key : c.freqBaseHz.num * c.maxCount ≤ c.sampleRateHz * c.freqBaseHz.den ↔
      c.freqBaseHz * c.maxCount ≤ c.sampleRateHz := by
    have hq : c.freqBaseHz * c.freqBaseHz.den = c.freqBaseHz.num := Rat.mul_den_eq_num _
    rw [← mul_le_mul_iff_of_pos_right hd, mul_right_comm, hq]
    exact_mod_cast Iff.rfl
  simp [Cfg.wf, key, Rat.num_pos]

end Sys2Proof
end

