-- ==== Sys2Proof/Laws/Ops.lean ====
section
/-! SUPPORT. For each shared operation of `Machine/Ops.lean`, what it answers and when. -/

namespace Sys2Proof.Machine

/-! ### Tape access (R53, R54) -/

theorem memRead_ok {s : State} {a n : Nat} (h : a + n ≤ s.cfg.tapeLen) :
    memRead s a n = .ok ((List.range n).map fun j => s.tapeByte (a + j)) := if_pos h

theorem memRead_eq_ok {s : State} {a n : Nat} {bs : List Byte} :
    memRead s a n = .ok bs ↔
      a + n ≤ s.cfg.tapeLen ∧ bs = (List.range n).map fun j => s.tapeByte (a + j) := by
  unfold memRead
  split_ifs with h <;> simp [h, eq_comm]

theorem memWrite_ok {s : State} {a : Nat} {bs : List Byte} (h : a + bs.length ≤ s.cfg.tapeLen) :
    memWrite s a bs = .ok { s with tape := Memory.writeRun s.tape a bs } := if_pos h

theorem memWrite_eq_ok {s t : State} {a : Nat} {bs : List Byte} :
    memWrite s a bs = .ok t ↔
      a + bs.length ≤ s.cfg.tapeLen ∧ t = { s with tape := Memory.writeRun s.tape a bs } := by
  unfold memWrite
  split_ifs with h <;> simp [h, eq_comm]

/-! ### Phase registers (R21) -/

theorem readPhase_ok {s : State} {i : Nat} (h : i < s.ph.length) : readPhase s i = .ok s.ph[i] := by
  simp [readPhase, h]

theorem readPhase_eq_ok {s : State} {i : Nat} {p : Rat} : readPhase s i = .ok p ↔ s.ph[i]? = some p := by
  unfold readPhase
  cases s.ph[i]? <;> simp

/-! ### Draws (R113) -/

/-- A draw changes the noise input only. -/
theorem takeDraw_frame (s : State) :
    (takeDraw s).2 = { s with draws := s.draws.tail, drawPos := s.drawPos + 1 } := by
  unfold takeDraw
  split <;> rename_i h <;> simp [h]

/-- The draw taken: the injected one, or the free value at this position. -/
theorem takeDraw_value (s : State) : (takeDraw s).1 = s.draws.headD (Config.freeDraw s.drawPos) := by
  unfold takeDraw
  split <;> rename_i h <;> simp [h]

/-! ### Acceptance (R9, R235, R259) -/

theorem next_eq_next {s t : State} :
    ((.next s : Host.Outcome State Fault Refusal) = .next t) ↔ t = s :=
  ⟨fun h => (Host.Outcome.next.inj h).symm, fun h => h ▸ rfl⟩

theorem configured_of_wf {s : State} {o : Host.Outcome State Fault Refusal} (h : s.cfg.wf = true) :
    configured s o = o := if_pos h

theorem configured_eq_next {s t : State} {o : Host.Outcome State Fault Refusal} :
    configured s o = .next t ↔ s.cfg.wf = true ∧ o = .next t := by
  unfold configured
  split_ifs with h <;> simp [h]

theorem accepted_ok {s : State} {o : Host.Outcome State Fault Refusal} (h : s.cfg.wf = true)
    (hs : s.opState ≠ .fault) : accepted s o = o := by
  simp [accepted, configured, h, hs]

theorem accepted_in_fault {s : State} {o : Host.Outcome State Fault Refusal} (h : s.cfg.wf = true)
    (hs : s.opState = .fault) : accepted s o = .fault .discarded := by
  simp [accepted, configured, h, hs]

theorem accepted_eq_next {s t : State} {o : Host.Outcome State Fault Refusal} :
    accepted s o = .next t ↔ s.cfg.wf = true ∧ s.opState ≠ .fault ∧ o = .next t := by
  by_cases h : s.cfg.wf = true <;> by_cases h' : s.opState = .fault <;> simp [accepted, configured, h, h']

theorem accepted_eq_fault {s : State} {f : Fault} {o : Host.Outcome State Fault Refusal} :
    accepted s o = .fault f ↔
      s.cfg.wf = true ∧ ((s.opState = .fault ∧ f = .discarded) ∨ (s.opState ≠ .fault ∧ o = .fault f)) := by
  by_cases h : s.cfg.wf = true <;> by_cases h' : s.opState = .fault <;>
    simp [accepted, configured, h, h', eq_comm]

theorem finish_eq_next {r : Except Fault State} {t : State} : finish r = .next t ↔ r = .ok t := by
  cases r <;> simp [finish]

theorem finish_eq_fault {r : Except Fault State} {f : Fault} : finish r = .fault f ↔ r = .error f := by
  cases r <;> simp [finish]

theorem raise_eq_next {c : Cause} {i : Instr} {s t : State} :
    raise c i s = .next t ↔ t = takeFault c i.port (encode i) s := next_eq_next

/-- Every cause has a code other than 0 (R251). -/
theorem causeCode_ne_zero (c : Cause) : causeCode c ≠ 0 := by cases c <;> decide

end Sys2Proof.Machine
end

