-- ==== Sys2Proof/Laws/Synthesis.lean ====
section
/-! SUPPORT. What the synthesis path answers: the voice loop, `MIX`, `CAST16`, `ENVADV`, the draws and
the tape writer, each said once. -/

namespace Sys2Proof.Machine

/-! ### ENVADV and CAST16 -/

/-- `ENVADV` changes `ENV_PH` and `ENV_EN` only (R131). -/
theorem envadv_frame (s : State) :
    envadv s = { s with envPh := (envadv s).envPh, envEn := (envadv s).envEn } := by
  unfold envadv
  split_ifs <;> rfl

/-- `ENVADV` reads the envelope registers and the configuration only (R131). -/
theorem envadv_congr {s t : State} (hp : t.envPh = s.envPh) (he : t.envEn = s.envEn)
    (hs : t.envSel = s.envSel) (hc : t.cfg = s.cfg) :
    (envadv t).envPh = (envadv s).envPh ∧ (envadv t).envEn = (envadv s).envEn := by
  unfold envadv envIncrement envPeriod
  rw [hp, he, hs, hc]
  split_ifs <;> simp [hp, he]

/-- `CAST16` changes `OVF` only, and only by setting it (R157). -/
theorem cast16_frame (x : Rat) (s : State) :
    (cast16 x s).2 = { s with ovf := s.ovf || !inSampleRange (trunc x) } := by
  unfold cast16
  split_ifs with h <;> simp [h]

/-- The sample depends on the value and the policy only (R155, R156). -/
theorem cast16_value (x : Rat) (s : State) :
    (cast16 x s).1 =
      if inSampleRange (trunc x) then trunc x else outOfRangeSample s.cfg.satPolicy (trunc x) := by
  unfold cast16
  split_ifs <;> rfl

/-! ### The voice loop (R151, R153, R154) -/

/-- The phase file after `k` voices from index `i` on were advanced once. -/
def advancedPhases (s : State) (i k : Nat) : List Rat :=
  s.ph.mapIdx fun j p =>
    if i ≤ j ∧ j < i + k then phadv p (voiceFrequency s j) (s.cfg.sampleRateHz : Rat) else p

/-- The sum of `k` voices from index `i` on, each by its phase before the advance. -/
def voiceSum (s : State) (i k : Nat) : Rat :=
  ∑ j ∈ Finset.range k, saw (s.ph.getD (i + j) 0) * s.cfg.aMax

@[simp] theorem advancedPhases_length (s : State) (i k : Nat) :
    (advancedPhases s i k).length = s.ph.length := by simp [advancedPhases]

theorem advancedPhases_zero (s : State) (i : Nat) : advancedPhases s i 0 = s.ph := by
  apply List.ext_getElem (by simp)
  intro j h1 h2
  have : ¬ (i ≤ j ∧ j < i) := by omega
  simp [advancedPhases, this]

/-- The voice loop over voices that all have a register: the sum and the advanced phases. -/
theorem mixVoices_ok (k : Nat) : ∀ (i : Nat) (acc : Rat) (s : State), i + k ≤ s.ph.length →
    mixVoices k i acc s = .ok (acc + voiceSum s i k, { s with ph := advancedPhases s i k }) := by
  induction k with
  | zero =>
    intro i acc s _
    simp [mixVoices, voiceSum, advancedPhases_zero]
  | succ k ih =>
    intro i acc s h
    have hi : i < s.ph.length := by omega
    have hlen : i + 1 + k ≤ (writePhase s i
        (phadv s.ph[i] (voiceFrequency s i) (s.cfg.sampleRateHz : Rat))).ph.length := by
      simp
      omega
    simp only [mixVoices, readPhase_ok hi]
    rw [ih _ _ _ hlen]
    congr 2
    · simp only [voiceSum]
      rw [Finset.sum_range_succ']
      have hc : ∀ j ∈ Finset.range k, saw ((writePhase s i (phadv s.ph[i] (voiceFrequency s i)
          (s.cfg.sampleRateHz : Rat))).ph.getD (i + 1 + j) 0) * s.cfg.aMax =
          saw (s.ph.getD (i + (j + 1)) 0) * s.cfg.aMax := by
        intro j _
        have h1 : i + 1 + j = i + (j + 1) := by omega
        simp [List.getD_eq_getElem?_getD, h1]
      simp only [writePhase_cfg]
      rw [Finset.sum_congr rfl hc]
      simp [List.getD_eq_getElem?_getD, hi]
      ring
    · have : advancedPhases (writePhase s i (phadv s.ph[i] (voiceFrequency s i)
          (s.cfg.sampleRateHz : Rat))) (i + 1) k = advancedPhases s i (k + 1) := by
        apply List.ext_getElem (by simp)
        intro j h1 h2
        simp only [advancedPhases, List.getElem_mapIdx, writePhase_ph, List.getElem_set,
          voiceFrequency, State.heightValue, writePhase_height, writePhase_cfg]
        rcases Nat.lt_trichotomy j i with hj | rfl | hj
        · rw [if_neg (by omega), if_neg (by omega), if_neg (by omega)]
        · rw [if_neg (by omega), if_pos rfl, if_pos (by omega)]
        · by_cases hk : j < i + 1 + k
          · rw [if_pos ⟨by omega, hk⟩, if_neg (by omega), if_pos ⟨by omega, by omega⟩]
          · rw [if_neg (by omega), if_neg (by omega), if_neg (by omega)]
      rw [this]
      rfl

/-! ### MIX (R151) -/

/-- The mix value of a state whose active voices all have a register (R151). -/
def mixValue (xi : Draw) (s : State) : Rat := mixTotal (voiceSum s 0 s.vcount) xi s

/-- The state after one sample, but for the flag `CAST16` may set. -/
def afterSample (s : State) : State :=
  { s with ph := advancedPhases s 0 s.vcount, envPh := (envadv s).envPh, envEn := (envadv s).envEn }

/-- `MIX` on a state whose active voices all have a register (R151). -/
theorem mix_ok (xi : Draw) {s : State} (h : s.vcount ≤ s.ph.length) :
    mix xi s = .ok (cast16 (mixValue xi s) (afterSample s)) := by
  have he : envadv { s with ph := advancedPhases s 0 s.vcount } = afterSample s := by
    rw [envadv_frame]
    obtain ⟨h1, h2⟩ := envadv_congr (s := s)
      (t := { s with ph := advancedPhases s 0 s.vcount }) rfl rfl rfl rfl
    rw [h1, h2]
    rfl
  simp only [mix]
  rw [mixVoices_ok _ _ _ _ (by omega)]
  simp only [he, zero_add]
  rfl

/-- The state after `MIX`: phases, envelope and `OVF` only (R151). -/
theorem mix_frame {xi : Draw} {s t : State} {v : Int} (h : s.vcount ≤ s.ph.length)
    (hm : mix xi s = .ok (v, t)) :
    t = { afterSample s with ovf := s.ovf || !inSampleRange (trunc (mixValue xi s)) } := by
  rw [mix_ok xi h] at hm
  have := congrArg Prod.snd (Except.ok.inj hm)
  rw [cast16_frame] at this
  exact this.symm

theorem envadv_side (s : State) (m : List Host.Cell) (c : Nat) (d : List Draw) (k : Nat)
    (o : List Byte) : envadv (s.side m c d k o) = (envadv s).side m c d k o := by
  have hi : envIncrement (s.side m c d k o) = envIncrement s := rfl
  by_cases h1 : s.envEn = true
  · by_cases h2 : 1 ≤ s.envPh + envIncrement s
    · simp [envadv, hi, h1, h2]
      rfl
    · simp [envadv, hi, h1, h2]
      rfl
  · simp [envadv, h1]

theorem afterSample_side (s : State) (m : List Host.Cell) (c : Nat) (d : List Draw) (k : Nat)
    (o : List Byte) : afterSample (s.side m c d k o) = (afterSample s).side m c d k o := by
  simp only [afterSample, envadv_side]
  rfl

theorem cast16_side (x : Rat) (s : State) (m : List Host.Cell) (c : Nat) (d : List Draw) (k : Nat)
    (o : List Byte) : cast16 x (s.side m c d k o) = ((cast16 x s).1, (cast16 x s).2.side m c d k o) := by
  unfold cast16
  split_ifs <;> rfl

/-- `MIX` neither reads nor writes the tape, the cursor or a channel (R151). -/
theorem mix_side (xi : Draw) {s : State} (h : s.vcount ≤ s.ph.length) (m : List Host.Cell)
    (c : Nat) (d : List Draw) (k : Nat) (o : List Byte) :
    mix xi (s.side m c d k o) = .ok ((cast16 (mixValue xi s) (afterSample s)).1,
      (cast16 (mixValue xi s) (afterSample s)).2.side m c d k o) := by
  rw [mix_ok xi (by simpa using h), afterSample_side, cast16_side]
  rfl

/-! ### Draws (R113, R185) -/

/-- A run of draws changes the noise input only. -/
theorem noiseRun_frame (k : Nat) (s : State) :
    (noiseRun k s).2 = { s with draws := s.draws.drop k, drawPos := s.drawPos + k } := by
  induction k generalizing s with
  | zero => rfl
  | succ k ih =>
    simp only [noiseRun, noise]
    rw [ih, takeDraw_frame]
    simp [Nat.add_comm, Nat.add_left_comm]

/-- A run of draws is as long as asked for. -/
@[simp] theorem noiseRun_length (k : Nat) (s : State) : (noiseRun k s).1.length = k := by
  induction k generalizing s with
  | zero => rfl
  | succ k ih => simp [noiseRun, ih]

/-- A run of draws reads the noise input only. -/
theorem noiseRun_congr (k : Nat) {s t : State} (hd : t.draws = s.draws) (hp : t.drawPos = s.drawPos) :
    (noiseRun k t).1 = (noiseRun k s).1 := by
  induction k generalizing s t with
  | zero => rfl
  | succ k ih =>
    simp only [noiseRun, noise]
    rw [ih (s := (takeDraw s).2) (by simp [takeDraw_frame, hd]) (by simp [takeDraw_frame, hp]),
      takeDraw_value, takeDraw_value, hd, hp]

/-! ### The tape writer (R182) -/

theorem generate_cons (xi : Draw) (xs : List Draw) {s : State} (h : s.vcount ≤ s.ph.length) :
    generate (xi :: xs) s =
      ((cast16 (mixValue xi s) (afterSample s)).1 ::
          (generate xs (cast16 (mixValue xi s) (afterSample s)).2).1,
        (generate xs (cast16 (mixValue xi s) (afterSample s)).2).2) := by
  simp only [generate, mix_ok xi h]

/-- The registers a run of samples may change: phases, envelope, `OVF` (R182). -/
theorem generate_frame (xs : List Draw) {s : State} (h : s.vcount ≤ s.ph.length) :
    (generate xs s).2 = { s with
      ph := (generate xs s).2.ph
      envPh := (generate xs s).2.envPh
      envEn := (generate xs s).2.envEn
      ovf := (generate xs s).2.ovf } ∧
    (generate xs s).2.ph.length = s.ph.length ∧ (generate xs s).1.length = xs.length := by
  induction xs generalizing s with
  | nil => exact ⟨rfl, rfl, rfl⟩
  | cons xi xs ih =>
    have hf := cast16_frame (mixValue xi s) (afterSample s)
    have h' : (cast16 (mixValue xi s) (afterSample s)).2.vcount ≤
        (cast16 (mixValue xi s) (afterSample s)).2.ph.length := by
      rw [hf]
      simpa [afterSample] using h
    obtain ⟨h1, h2, h3⟩ := ih h'
    rw [generate_cons xi xs h]
    refine ⟨?_, ?_, ?_⟩
    · rw [h1, hf]
      rfl
    · rw [h2, hf]
      simp [afterSample]
    · simp [h3]

/-- Generation neither reads nor writes the tape, the cursor or a channel. -/
theorem generate_side (xs : List Draw) {s : State} (h : s.vcount ≤ s.ph.length)
    (m : List Host.Cell) (c : Nat) (d : List Draw) (k : Nat) (o : List Byte) :
    generate xs (s.side m c d k o) = ((generate xs s).1, (generate xs s).2.side m c d k o) := by
  induction xs generalizing s with
  | nil => rfl
  | cons xi xs ih =>
    have hf := cast16_frame (mixValue xi s) (afterSample s)
    have h' : (cast16 (mixValue xi s) (afterSample s)).2.vcount ≤
        (cast16 (mixValue xi s) (afterSample s)).2.ph.length := by
      rw [hf]
      simpa [afterSample] using h
    rw [generate_cons xi xs h]
    simp only [generate, mix_side xi h]
    rw [ih h']

/-- Generation in two runs is generation in one. -/
theorem generate_append (xs ys : List Draw) {s : State} (h : s.vcount ≤ s.ph.length) :
    generate (xs ++ ys) s =
      ((generate xs s).1 ++ (generate ys (generate xs s).2).1, (generate ys (generate xs s).2).2) := by
  induction xs generalizing s with
  | nil => simp [generate]
  | cons xi xs ih =>
    have hf := cast16_frame (mixValue xi s) (afterSample s)
    have h' : (cast16 (mixValue xi s) (afterSample s)).2.vcount ≤
        (cast16 (mixValue xi s) (afterSample s)).2.ph.length := by
      rw [hf]
      simpa [afterSample] using h
    rw [List.cons_append, generate_cons xi _ h, generate_cons xi xs h, ih h']
    rfl

@[simp] theorem pcmBytes_length (vs : List Int) : (pcmBytes vs).length = 2 * vs.length := by
  induction vs with
  | nil => rfl
  | cons v vs ih =>
    simp only [pcmBytes, List.flatMap_cons, List.length_append, List.length_cons, List.length_nil] at ih ⊢
    omega

/-- `TWRITE` under its precondition (R182, R183): the generated samples' bytes from `pos` on, and the
registers generation leaves. -/
theorem twrite_ok (xs : List Draw) : ∀ (pos : Nat) (s : State), s.vcount ≤ s.ph.length →
    pos + 2 * xs.length ≤ s.cfg.tapeLen →
    twrite pos xs s = .ok ((generate xs s).2.side
      (Memory.writeRun s.tape pos (pcmBytes (generate xs s).1)) s.cursor s.draws s.drawPos s.audioOut) := by
  induction xs with
  | nil =>
    intro pos s _ _
    rfl
  | cons xi xs ih =>
    intro pos s h hp
    simp only [List.length_cons] at hp
    have hf := cast16_frame (mixValue xi s) (afterSample s)
    have hgen := generate_cons xi xs h
    generalize hr : cast16 (mixValue xi s) (afterSample s) = r at hf hgen
    have h' : r.2.vcount ≤ r.2.ph.length := by
      rw [hf]
      simpa [afterSample] using h
    have hcfg : r.2.cfg = s.cfg := by rw [hf]; rfl
    have hside : ({ r.2 with tape := Memory.writeRun r.2.tape pos [(pcmenc r.1).1, (pcmenc r.1).2] } : State) =
        r.2.side (Memory.writeRun s.tape pos [(pcmenc r.1).1, (pcmenc r.1).2])
          s.cursor s.draws s.drawPos s.audioOut := by
      rw [hf]
      rfl
    simp only [twrite, mix_ok xi h, hr]
    rw [memWrite_ok (by simp [hcfg]; omega), hside]
    simp only
    rw [ih _ _ (by simpa using h') (by simp [hcfg]; omega), generate_side xs h', hgen]
    rfl

end Sys2Proof.Machine
end

