-- ==== Sys2Proof/Laws/Pull.lean ====
section
/-! SUPPORT. What `DRAIN`, `REFILL` and a legal `PULL` answer, each said once (R202 to R205). -/

namespace Sys2Proof.Machine

/-! ### DRAIN (R202, R203) -/

@[simp] theorem State.ringBytes_length (s : State) (n : Nat) : (s.ringBytes n).length = n := by
  simp [State.ringBytes]

/-- `DRAIN(n)`: the bytes delivered and the cursor left (R203). -/
theorem drain_ok {s : State} {n : Nat} (hc : s.cursor < s.cfg.tapeLen) (hn : n ≤ s.cfg.tapeLen) :
    drain n s = .ok (s.side s.tape ((s.cursor + n) % s.cfg.tapeLen) s.draws s.drawPos
      (s.audioOut ++ s.ringBytes n)) := by
  unfold drain
  by_cases h : s.cfg.tapeLen - s.cursor ≤ n
  · rw [if_pos h]
    have h1 : drainSegment s.cursor (s.cfg.tapeLen - s.cursor) 0 s = .ok
        { outPush ((List.range (s.cfg.tapeLen - s.cursor)).map fun j => s.tapeByte (s.cursor + j)) s with
          cursor := 0 } := by
      unfold drainSegment
      rw [memRead_ok (by omega)]
    rw [h1]
    simp only
    unfold drainSegment
    rw [memRead_ok (by simp [outPush]; omega)]
    have hsplit : n = (s.cfg.tapeLen - s.cursor) + (n - (s.cfg.tapeLen - s.cursor)) := by omega
    have hb : s.ringBytes n =
        ((List.range (s.cfg.tapeLen - s.cursor)).map fun j => s.tapeByte (s.cursor + j)) ++
        ((List.range (n - (s.cfg.tapeLen - s.cursor))).map fun j => s.tapeByte (0 + j)) := by
      unfold State.ringBytes
      conv_lhs => rw [hsplit, List.range_add, List.map_append]
      congr 1
      · apply List.map_congr_left
        intro j hj
        have hj := List.mem_range.1 hj
        rw [Nat.mod_eq_of_lt (by omega)]
      · rw [List.map_map]
        apply List.map_congr_left
        intro j hj
        have hj := List.mem_range.1 hj
        have h3 : s.cursor + ((s.cfg.tapeLen - s.cursor) + j) = j + s.cfg.tapeLen := by omega
        simp only [Function.comp, h3, Nat.add_mod_right, Nat.zero_add]
        rw [Nat.mod_eq_of_lt (by omega)]
    have hcur : (s.cursor + n) % s.cfg.tapeLen = n - (s.cfg.tapeLen - s.cursor) := by
      have h3 : s.cursor + n = (n - (s.cfg.tapeLen - s.cursor)) + s.cfg.tapeLen := by omega
      rw [h3, Nat.add_mod_right, Nat.mod_eq_of_lt (by omega)]
    rw [hb, hcur]
    simp [outPush, State.tapeByte, State.side]
  · rw [if_neg h]
    unfold drainSegment
    rw [memRead_ok (by omega)]
    have hb : s.ringBytes n = (List.range n).map fun j => s.tapeByte (s.cursor + j) := by
      unfold State.ringBytes
      apply List.map_congr_left
      intro j hj
      have hj := List.mem_range.1 hj
      rw [Nat.mod_eq_of_lt (by omega)]
    rw [hb, Nat.mod_eq_of_lt (by omega)]
    rfl

/-! ### REFILL (R204) -/

/-- A run of bytes written from `c` on, once round the tape end. -/
def Memory.ringWrite (L : Nat) (m : List Host.Cell) (c : Nat) (bs : List Byte) : List Host.Cell :=
  if L < c + bs.length then
    Memory.writeRun (Memory.writeRun m c (bs.take (L - c))) 0 (bs.drop (L - c))
  else Memory.writeRun m c bs

theorem Memory.ringWrite_wf {m : List Host.Cell} (hm : Memory.wf m) (L c : Nat) (bs : List Byte) :
    Memory.wf (Memory.ringWrite L m c bs) := by
  unfold Memory.ringWrite
  split_ifs
  · exact Memory.writeRun_wf (Memory.writeRun_wf hm _ _) _ _
  · exact Memory.writeRun_wf hm _ _

theorem Memory.mem_ringWrite {L : Nat} {m : List Host.Cell} {c : Nat} {bs : List Byte} (hc : c < L)
    (hb : bs.length ≤ L) {x : Host.Cell} (hx : x ∈ Memory.ringWrite L m c bs) : x ∈ m ∨ x.1 < L := by
  unfold Memory.ringWrite at hx
  split_ifs at hx
  · rcases Memory.mem_writeRun hx with h | ⟨-, h⟩
    · rcases Memory.mem_writeRun h with h | ⟨-, h⟩
      · exact .inl h
      · simp only [List.length_take] at h
        exact .inr (by omega)
    · simp only [List.length_drop] at h
      exact .inr (by omega)
  · rcases Memory.mem_writeRun hx with h | ⟨-, h⟩
    · exact .inl h
    · exact .inr (by omega)

/-- Reading the written ring at its `j`-th address. -/
theorem Memory.read_ringWrite_at {L : Nat} {m : List Host.Cell} (hm : Memory.wf m) {c : Nat}
    {bs : List Byte} (hc : c < L) (hb : bs.length ≤ L) {j : Nat} (hj : j < bs.length) :
    Memory.read (Memory.ringWrite L m c bs) ((c + j) % L) = bs[j] := by
  unfold Memory.ringWrite
  split_ifs with h
  · rw [Memory.read_writeRun (Memory.writeRun_wf hm _ _), Memory.read_writeRun hm]
    simp only [List.length_take, List.length_drop, Nat.zero_le, true_and, Nat.zero_add, Nat.sub_zero]
    by_cases hw : c + j < L
    · rw [Nat.mod_eq_of_lt hw, if_neg (by omega), if_pos (by omega)]
      have h1 : c + j - c = j := by omega
      simp [h1, List.getD_eq_getElem?_getD, hj, show j < L - c by omega]
    · have h2 : (c + j) % L = j - (L - c) := by
        have h3 : c + j = (j - (L - c)) + L := by omega
        rw [h3, Nat.add_mod_right, Nat.mod_eq_of_lt (by omega)]
      rw [h2, if_pos (by omega)]
      have h4 : L - c + (j - (L - c)) = j := by omega
      simp [List.getD_eq_getElem?_getD, List.getElem?_drop, h4, hj]
  · have hw : c + j < L := by omega
    rw [Memory.read_writeRun hm, Nat.mod_eq_of_lt hw, if_pos (by omega)]
    have h1 : c + j - c = j := by omega
    simp [h1, List.getD_eq_getElem?_getD, hj]

/-- Reading outside the written ring. -/
theorem Memory.read_ringWrite_off {L : Nat} {m : List Host.Cell} (hm : Memory.wf m) {c : Nat}
    {bs : List Byte} (hc : c < L) (hb : bs.length ≤ L) {a : Nat}
    (ha : ∀ j < bs.length, a ≠ (c + j) % L) :
    Memory.read (Memory.ringWrite L m c bs) a = Memory.read m a := by
  unfold Memory.ringWrite
  split_ifs with h
  · rw [Memory.read_writeRun (Memory.writeRun_wf hm _ _), Memory.read_writeRun hm]
    simp only [List.length_take, List.length_drop, Nat.zero_le, true_and, Nat.zero_add]
    rw [if_neg, if_neg]
    · rintro ⟨h1, h2⟩
      refine ha (a - c) (by omega) ?_
      rw [Nat.mod_eq_of_lt (by omega)]
      omega
    · intro h1
      refine ha (L - c + a) (by omega) ?_
      have h3 : c + (L - c + a) = a + L := by omega
      rw [h3, Nat.add_mod_right, Nat.mod_eq_of_lt (by omega)]
  · rw [Memory.read_writeRun hm, if_neg]
    rintro ⟨h1, h2⟩
    refine ha (a - c) (by omega) ?_
    by_cases hw : a < L
    · rw [Nat.mod_eq_of_lt (by omega)]
      omega
    · omega

theorem pcmBytes_append (vs ws : List Int) : pcmBytes (vs ++ ws) = pcmBytes vs ++ pcmBytes ws := by
  simp [pcmBytes]

/-- `REFILL` of an even region from an even cursor (R204): the generated samples' bytes, once round the
tape end. -/
theorem refill_ok {s : State} {c n : Nat} {xs : List Draw} (hv : s.vcount ≤ s.ph.length)
    (hL : s.cfg.tapeLen % 2 = 0) (hc : c % 2 = 0) (hcl : c < s.cfg.tapeLen)
    (hx : 2 * xs.length = n) (hn : n ≤ s.cfg.tapeLen) :
    refill c n xs s = .ok ((generate xs s).2.side
      (Memory.ringWrite s.cfg.tapeLen s.tape c (pcmBytes (generate xs s).1))
      s.cursor s.draws s.drawPos s.audioOut) := by
  have hlen : (pcmBytes (generate xs s).1).length = n := by
    rw [pcmBytes_length, (generate_frame xs hv).2.2, hx]
  unfold refill Memory.ringWrite
  rw [hlen]
  split_ifs with h
  · have hk : 2 * ((s.cfg.tapeLen - c) / 2) = s.cfg.tapeLen - c := by omega
    have htake : (xs.take ((s.cfg.tapeLen - c) / 2)).length = (s.cfg.tapeLen - c) / 2 := by
      simp only [List.length_take]
      omega
    generalize hys : xs.take ((s.cfg.tapeLen - c) / 2) = ys at htake
    generalize hzs : xs.drop ((s.cfg.tapeLen - c) / 2) = zs
    have hxyz : xs = ys ++ zs := by rw [← hys, ← hzs, List.take_append_drop]
    have hzlen : ys.length + zs.length = xs.length := by rw [hxyz, List.length_append]
    obtain ⟨hf, hphl, hgl⟩ := generate_frame ys hv
    rw [twrite_ok ys c s hv (by omega)]
    simp only
    have hv' : (generate ys s).2.vcount ≤ (generate ys s).2.ph.length := by
      rw [hphl, hf]
      exact hv
    have hcfg : (generate ys s).2.cfg = s.cfg := by rw [hf]
    rw [twrite_ok zs 0 _ (by simpa using hv') (by simp [hcfg]; omega), generate_side zs hv']
    rw [hxyz, generate_append ys zs hv]
    have hbl : (pcmBytes (generate ys s).1).length = s.cfg.tapeLen - c := by
      rw [pcmBytes_length, hgl, htake, hk]
    simp only [pcmBytes_append]
    rw [← hbl, List.take_left, List.drop_left]
    rfl
  · exact twrite_ok xs c s hv (by omega)

/-! ### PULL (R205) -/

/-- The effect of a legal `PULL` in a state within the invariants of R37: output, tape, cursor, noise
input, and the registers generation leaves. -/
theorem pullBytes_ok {s : State} {n : Nat} (hv : s.vcount ≤ s.ph.length)
    (hL : s.cfg.tapeLen % 2 = 0) (hc : s.cursor % 2 = 0) (hcl : s.cursor < s.cfg.tapeLen)
    (hn2 : n % 2 = 0) (hn : n ≤ s.cfg.tapeLen) :
    pullBytes n s = .ok ((s.pullGenerated n).2.side
      (Memory.ringWrite s.cfg.tapeLen s.tape s.cursor (pcmBytes (s.pullGenerated n).1))
      ((s.cursor + n) % s.cfg.tapeLen) (s.draws.drop (n / 2)) (s.drawPos + n / 2)
      (s.audioOut ++ s.ringBytes n)) := by
  unfold pullBytes
  rw [drain_ok hcl hn]
  simp only
  have hd : (noiseRun (n / 2) (s.side s.tape ((s.cursor + n) % s.cfg.tapeLen) s.draws s.drawPos
      (s.audioOut ++ s.ringBytes n))).1 = (noiseRun (n / 2) s).1 := noiseRun_congr _ rfl rfl
  rw [hd, noiseRun_frame]
  have hlen : 2 * ((noiseRun (n / 2) s).1).length = n := by
    rw [noiseRun_length]
    omega
  have key := refill_ok (s := s.side s.tape ((s.cursor + n) % s.cfg.tapeLen) (s.draws.drop (n / 2))
    (s.drawPos + n / 2) (s.audioOut ++ s.ringBytes n)) (c := s.cursor) (n := n)
    (xs := (noiseRun (n / 2) s).1) hv hL hc hcl hlen hn
  rw [generate_side _ hv] at key
  exact key

/-- A legal `PULL` executes (R201, R205). -/
theorem execPull_legal {s : State} {nb : BitVec 32} (hcfg : s.cfg.wf = true) (hr : s.opState = .run)
    (h2 : nb.toNat % 2 = 0) (hn : nb.toNat ≤ s.cfg.tapeLen) :
    execPull nb s = finish (pullBytes nb.toNat s) := by
  unfold execPull
  rw [accepted_ok hcfg (by simp [hr]), if_neg (by simp [hr]), if_neg (by simp [h2]), if_neg (by omega)]

end Sys2Proof.Machine
end

