-- ==== Sys2Proof/Laws/Frame.lean ====
section
/-! SUPPORT. What the operations of `PULL` leave unchanged in every state, within the invariants or not:
one frame lemma per operation. -/

namespace Sys2Proof.Machine

/-- What generating samples and storing them may change: phases, envelope, `OVF` and the tape. The
envelope moves only while enabled, and `OVF` is never cleared. -/
structure SynthFrame (s t : State) : Prop where
  rest : t = { s with ph := t.ph, envPh := t.envPh, envEn := t.envEn, ovf := t.ovf, tape := t.tape }
  phCount : t.ph.length = s.ph.length
  held : s.envEn = false → t.envEn = false ∧ t.envPh = s.envPh
  sticky : s.ovf = true → t.ovf = true

theorem SynthFrame.refl (s : State) : SynthFrame s s := ⟨rfl, rfl, fun h => ⟨h, rfl⟩, fun h => h⟩

theorem SynthFrame.trans {s t u : State} (h1 : SynthFrame s t) (h2 : SynthFrame t u) : SynthFrame s u where
  rest := by
    rw [h2.rest, h1.rest]
  phCount := h2.phCount.trans h1.phCount
  held h := by
    obtain ⟨a, b⟩ := h1.held h
    obtain ⟨c, d⟩ := h2.held a
    exact ⟨c, d.trans b⟩
  sticky h := h2.sticky (h1.sticky h)

theorem mixVoices_frame (k : Nat) : ∀ (i : Nat) (acc a : Rat) (s t : State),
    mixVoices k i acc s = .ok (a, t) → t = { s with ph := t.ph } ∧ t.ph.length = s.ph.length := by
  induction k with
  | zero =>
    intro i acc a s t h
    cases h
    exact ⟨rfl, rfl⟩
  | succ k ih =>
    intro i acc a s t h
    simp only [mixVoices] at h
    split at h
    · cases h
    · obtain ⟨h1, h2⟩ := ih _ _ _ _ _ h
      refine ⟨?_, by simpa using h2⟩
      rw [h1]
      rfl

theorem envadv_synthFrame (s : State) : SynthFrame s (envadv s) where
  rest := by
    conv_lhs => rw [envadv_frame]
    rw [envadv_frame]
  phCount := by rw [envadv_frame]
  held h := by simp [envadv, h]
  sticky h := by rw [envadv_frame]; exact h

theorem cast16_synthFrame (x : Rat) (s : State) : SynthFrame s (cast16 x s).2 where
  rest := by rw [cast16_frame]
  phCount := by rw [cast16_frame]
  held h := by
    rw [cast16_frame]
    exact ⟨h, rfl⟩
  sticky h := by
    rw [cast16_frame]
    simp [h]

theorem mix_synthFrame {xi : Draw} {s t : State} {v : Int} (h : mix xi s = .ok (v, t)) :
    SynthFrame s t := by
  unfold mix at h
  split at h
  · cases h
  · rename_i acc s1 hm
    obtain ⟨h1, h2⟩ := mixVoices_frame _ _ _ _ _ _ hm
    have hs1 : SynthFrame s s1 := by
      refine ⟨?_, h2, ?_, ?_⟩
      · rw [h1]
      · rw [h1]
        exact fun h => ⟨h, rfl⟩
      · rw [h1]
        exact fun h => h
    have ht : t = (cast16 (mixTotal acc xi s1) (envadv s1)).2 := congrArg Prod.snd (Except.ok.inj h).symm
    rw [ht]
    exact (hs1.trans (envadv_synthFrame s1)).trans (cast16_synthFrame _ _)

theorem memWrite_synthFrame {s t : State} {a : Nat} {bs : List Byte} (h : memWrite s a bs = .ok t) :
    SynthFrame s t := by
  obtain ⟨-, rfl⟩ := memWrite_eq_ok.1 h
  exact ⟨rfl, rfl, fun h => ⟨h, rfl⟩, fun h => h⟩

theorem twrite_synthFrame (xs : List Draw) : ∀ (pos : Nat) (s t : State), twrite pos xs s = .ok t →
    SynthFrame s t := by
  induction xs with
  | nil =>
    intro pos s t h
    cases h
    exact SynthFrame.refl s
  | cons xi xs ih =>
    intro pos s t h
    simp only [twrite] at h
    split at h
    · cases h
    · rename_i v s1 hm
      split at h
      · cases h
      · rename_i s2 hw
        exact ((mix_synthFrame hm).trans (memWrite_synthFrame hw)).trans (ih _ _ _ h)

theorem refill_synthFrame {c n : Nat} {xs : List Draw} {s t : State} (h : refill c n xs s = .ok t) :
    SynthFrame s t := by
  unfold refill at h
  split_ifs at h
  · split at h
    · cases h
    · rename_i s1 h1
      exact (twrite_synthFrame _ _ _ _ h1).trans (twrite_synthFrame _ _ _ _ h)
  · exact twrite_synthFrame _ _ _ _ h

theorem drain_frame {n : Nat} {s t : State} (h : drain n s = .ok t) :
    t = { s with cursor := t.cursor, audioOut := t.audioOut } := by
  have seg : ∀ {a n c : Nat} {s t : State}, drainSegment a n c s = .ok t →
      t = { s with cursor := t.cursor, audioOut := t.audioOut } := by
    intro a n c s t h
    unfold drainSegment at h
    split at h
    · cases h
    · cases h
      rfl
  unfold drain at h
  split_ifs at h
  · split at h
    · cases h
    · rename_i s1 h1
      rw [seg h, seg h1]
  · exact seg h

/-- What a `PULL` that completes may change in any state (R205). -/
theorem pullBytes_frame {n : Nat} {s t : State} (h : pullBytes n s = .ok t) :
    t = { s with
      ph := t.ph, envPh := t.envPh, envEn := t.envEn, ovf := t.ovf, tape := t.tape,
      cursor := t.cursor, draws := t.draws, drawPos := t.drawPos, audioOut := t.audioOut } ∧
    t.ph.length = s.ph.length ∧ (s.envEn = false → t.envEn = false ∧ t.envPh = s.envPh) ∧
    (s.ovf = true → t.ovf = true) := by
  unfold pullBytes at h
  split at h
  · cases h
  · rename_i s1 h1
    have hd := drain_frame h1
    have hr := refill_synthFrame h
    rw [noiseRun_frame] at hr
    refine ⟨?_, ?_, ?_, ?_⟩
    · rw [hr.rest, hd]
    · rw [hr.phCount, hd]
    · intro h
      have := hr.held (by rw [hd]; exact h)
      rw [hd] at this
      exact this
    · intro h
      exact hr.sticky (by rw [hd]; exact h)

end Sys2Proof.Machine
end

