-- ==== Sys2Proof/Laws/Invariant.lean ====
section
/-! SUPPORT. What the invariants of R37 give the operations: the side conditions of the lemmas of
`Synthesis.lean` and `Pull.lean`, and a legal `PULL` in closed form. -/

namespace Sys2Proof.Machine

/-- Every active voice has a phase register (R21, R22). -/
theorem State.Inv.voices {s : State} (h : s.Inv) : s.vcount ≤ s.ph.length := by
  rw [h.phCount]
  exact h.vcountRange.2

theorem State.Inv.tapeLen_even {s : State} (h : s.Inv) : s.cfg.tapeLen % 2 = 0 :=
  ((Cfg.wf_iff _).1 h.cfgWf).2.2.2.1

theorem State.Inv.tapeLen_pos {s : State} (h : s.Inv) : 2 ≤ s.cfg.tapeLen :=
  ((Cfg.wf_iff _).1 h.cfgWf).2.2.1

/-- A state within the invariants stays so under another list of inputs. -/
theorem State.Inv.withInputs {s : State} (h : s.Inv) (xs : List Input) :
    ({ s with inputs := xs } : State).Inv := { h with }

/-- Fault entry keeps the invariants (R256). -/
theorem State.Inv.takeFault {s : State} (h : s.Inv) (c : Cause) (p : Port) (w : Word) :
    (Machine.takeFault c p w s).Inv :=
  { h with
    faultHeld := ⟨fun _ => causeCode_ne_zero c, fun _ => rfl⟩
    faultClear := fun h0 => absurd h0 (causeCode_ne_zero c) }

/-- The height of R28 lies in `[0,1]`. -/
theorem State.Inv.heightValue_range {s : State} (h : s.Inv) : 0 ≤ s.heightValue ∧ s.heightValue ≤ 1 := by
  have hc : s.height.toNat ≤ 65536 := by simpa [codeLegal] using h.heightLegal
  have hq : (s.height.toNat : Rat) ≤ 65536 := by exact_mod_cast hc
  unfold State.heightValue controlValue
  exact ⟨by positivity, by linarith⟩

/-- The noise scale of R29 lies in `[0,1]`. -/
theorem State.Inv.cdistValue_range {s : State} (h : s.Inv) : 0 ≤ s.cdistValue ∧ s.cdistValue ≤ 1 := by
  have hc : s.cdist.toNat ≤ 65536 := by simpa [codeLegal] using h.cdistLegal
  have hq : (s.cdist.toNat : Rat) ≤ 65536 := by exact_mod_cast hc
  unfold State.cdistValue controlValue
  exact ⟨by positivity, by linarith⟩

/-- The envelope increment is positive (R8, R131). -/
theorem State.Inv.envIncrement_pos {s : State} (h : s.Inv) : 0 < envIncrement s := by
  obtain ⟨hr, -, -, -, -, -, -, he, hs, -⟩ := (Cfg.wf_iff _).1 h.cfgWf
  have hq : (0 : Rat) < s.cfg.sampleRateHz := by exact_mod_cast hr
  unfold envIncrement envPeriod
  split_ifs <;> positivity

/-- With a noise scale of 0 a draw contributes 0 (R151). -/
theorem noiseTerm_of_silent {s : State} (h : s.cdist = 0) (xi : Draw) : noiseTerm xi s = 0 := by
  simp [noiseTerm, State.cdistValue, controlValue, h]

/-- A tape address past the end reads as unlisted. -/
theorem State.Inv.read_past_end {s : State} (h : s.Inv) {a : Nat} (ha : s.cfg.tapeLen ≤ a) :
    Memory.read s.tape a = Memory.unlisted := by
  have hb := h.tapeBounds
  generalize s.tape = m at hb
  induction m with
  | nil => rfl
  | cons c m ih =>
    obtain ⟨b, v⟩ := c
    have h1 : b < s.cfg.tapeLen := hb (b, v) (by simp)
    rw [Memory.read_cons, if_neg (by omega)]
    exact ih fun c hc => hb c (by simp [hc])

/-- The draws of a longer run are those of its first part and then those of the rest. -/
theorem noiseRun_add (a b : Nat) (s : State) :
    (noiseRun (a + b) s).1 = (noiseRun a s).1 ++ (noiseRun b (noiseRun a s).2).1 := by
  induction a generalizing s with
  | zero => simp [noiseRun]
  | succ a ih =>
    rw [show a + 1 + b = a + b + 1 by omega]
    simp only [noiseRun, List.cons_append]
    rw [ih]

/-- A `PULL` of `n` bytes generates `n` bytes of samples (R205). -/
theorem State.Inv.pullGenerated_bytes {s : State} (h : s.Inv) {n : Nat} (hn : n % 2 = 0) :
    (pcmBytes (s.pullGenerated n).1).length = n := by
  rw [pcmBytes_length, State.pullGenerated, (generate_frame _ h.voices).2.2, State.pullDraws,
    noiseRun_length]
  omega

/-- The effect of a legal `PULL` field by field (R205). -/
theorem State.Inv.pullBytes_fields {s : State} (h : s.Inv) {n : Nat} (h2 : n % 2 = 0)
    (hn : n ≤ s.cfg.tapeLen) : pullBytes n s = .ok { s with
      ph := (s.pullGenerated n).2.ph
      envPh := (s.pullGenerated n).2.envPh
      envEn := (s.pullGenerated n).2.envEn
      ovf := (s.pullGenerated n).2.ovf
      tape := Memory.ringWrite s.cfg.tapeLen s.tape s.cursor (pcmBytes (s.pullGenerated n).1)
      cursor := (s.cursor + n) % s.cfg.tapeLen
      draws := s.draws.drop (n / 2)
      drawPos := s.drawPos + n / 2
      audioOut := s.audioOut ++ s.ringBytes n } := by
  rw [pullBytes_ok h.voices h.tapeLen_even h.cursorEven h.cursorRange h2 hn]
  have hf : (s.pullGenerated n).2 = _ := (generate_frame (s.pullDraws n) h.voices).1
  rw [hf]
  rfl

end Sys2Proof.Machine
end

