-- ==== Sys2Proof/Laws/PerInstr.lean ====
section
/-! SUPPORT. Statements made for every command, one lemma per constructor. -/

namespace Sys2Proof.Laws

/-- The opcode byte of a command's word is found, on the command's own port, under its own name: the
encoder and the opcode map of R86 agree. -/
def EncodeLookup.Statement (i : Instr) : Prop :=
  ∃ r ∈ opcodeMap, r.port = i.port ∧ r.op = opField (encode i) ∧
    lookupOp i.port (opField (encode i)) = some r.name

theorem EncodeLookup.pull (n : BitVec 32) : EncodeLookup.Statement (.pull n) :=
  ⟨⟨.A, 0x10#8, .pull⟩, by decide, rfl, (opField_encode_pull n).symm,
    (congrArg (lookupOp .A) (opField_encode_pull n)).trans (by decide)⟩

theorem EncodeLookup.openDevice (r : BitVec 32) (b : BitVec 16) (c f : BitVec 4) :
    EncodeLookup.Statement (.openDevice r b c f) :=
  ⟨⟨.C, 0x20#8, .openDevice⟩, by decide, rfl, (opField_encode_open r b c f).symm,
    (congrArg (lookupOp .C) (opField_encode_open r b c f)).trans (by decide)⟩

theorem EncodeLookup.closeDevice : EncodeLookup.Statement .closeDevice :=
  ⟨⟨.C, 0x21#8, .closeDevice⟩, by decide, rfl, by decide, by decide⟩

theorem EncodeLookup.seth (code : BitVec 17) : EncodeLookup.Statement (.seth code) :=
  have h : opField (encode (.seth code)) = 0x30#8 := opField_append 0x30#8 (0#39 ++ code)
  ⟨⟨.C, 0x30#8, .seth⟩, by decide, rfl, h.symm, (congrArg (lookupOp .C) h).trans (by decide)⟩

theorem EncodeLookup.setc (code : BitVec 17) : EncodeLookup.Statement (.setc code) :=
  have h : opField (encode (.setc code)) = 0x31#8 := opField_append 0x31#8 (0#39 ++ code)
  ⟨⟨.C, 0x31#8, .setc⟩, by decide, rfl, h.symm, (congrArg (lookupOp .C) h).trans (by decide)⟩

theorem EncodeLookup.vinc : EncodeLookup.Statement .vinc :=
  ⟨⟨.C, 0x40#8, .vinc⟩, by decide, rfl, by decide, by decide⟩

theorem EncodeLookup.vdec : EncodeLookup.Statement .vdec :=
  ⟨⟨.C, 0x41#8, .vdec⟩, by decide, rfl, by decide, by decide⟩

theorem EncodeLookup.trige : EncodeLookup.Statement .trige :=
  ⟨⟨.C, 0x50#8, .trige⟩, by decide, rfl, by decide, by decide⟩

theorem EncodeLookup.trigs : EncodeLookup.Statement .trigs :=
  ⟨⟨.C, 0x51#8, .trigs⟩, by decide, rfl, by decide, by decide⟩

theorem EncodeLookup.rdstat (sel : BitVec 4) : EncodeLookup.Statement (.rdstat sel) :=
  have h : opField (encode (.rdstat sel)) = 0x60#8 := opField_append 0x60#8 (0#52 ++ sel)
  ⟨⟨.C, 0x60#8, .rdstat⟩, by decide, rfl, h.symm, (congrArg (lookupOp .C) h).trans (by decide)⟩

end Sys2Proof.Laws
end

