-- ==== Sys2Proof/Laws/Step.lean ====
section
/-! SUPPORT. Once for all: what each meaning, and the step, can answer as a next state. -/

namespace Sys2Proof.Machine

/-! ### Meanings -/

theorem execSeth_next {code : BitVec 17} {s t : State} : execSeth code s = .next t ↔
    s.cfg.wf = true ∧ s.opState ≠ .fault ∧
      ((codeLegal code = true ∧ t = { s with height := code }) ∨
        (codeLegal code = false ∧ t = takeFault .field .C (encode (.seth code)) s)) := by
  unfold execSeth
  rw [accepted_eq_next]
  cases codeLegal code <;> simp [raise_eq_next, next_eq_next, Instr.port, -Host.Outcome.next.injEq]

theorem execSetc_next {code : BitVec 17} {s t : State} : execSetc code s = .next t ↔
    s.cfg.wf = true ∧ s.opState ≠ .fault ∧
      ((codeLegal code = true ∧ t = { s with cdist := code }) ∨
        (codeLegal code = false ∧ t = takeFault .field .C (encode (.setc code)) s)) := by
  unfold execSetc
  rw [accepted_eq_next]
  cases codeLegal code <;> simp [raise_eq_next, next_eq_next, Instr.port, -Host.Outcome.next.injEq]

theorem execVinc_next {s t : State} : execVinc s = .next t ↔
    s.cfg.wf = true ∧ s.opState ≠ .fault ∧
      t = { s with vcount := if s.vcount = s.cfg.maxCount then 1 else s.vcount + 1 } := by
  unfold execVinc
  rw [accepted_eq_next, next_eq_next]

theorem execVdec_next {s t : State} : execVdec s = .next t ↔
    s.cfg.wf = true ∧ s.opState ≠ .fault ∧
      t = { s with vcount := if s.vcount = 1 then s.cfg.maxCount else s.vcount - 1 } := by
  unfold execVdec
  rw [accepted_eq_next, next_eq_next]

theorem execTrige_next {s t : State} : execTrige s = .next t ↔
    s.cfg.wf = true ∧ s.opState ≠ .fault ∧ t = rearm false s := by
  unfold execTrige
  rw [accepted_eq_next, next_eq_next]

theorem execTrigs_next {s t : State} : execTrigs s = .next t ↔
    s.cfg.wf = true ∧ s.opState ≠ .fault ∧ t = rearm true s := by
  unfold execTrigs
  rw [accepted_eq_next, next_eq_next]

theorem execOpenDevice_next {r : BitVec 32} {b : BitVec 16} {c f : BitVec 4} {s t : State} :
    execOpenDevice r b c f s = .next t ↔ s.cfg.wf = true ∧
      ((s.opState = .run ∧ t = takeFault .state .C (encode (.openDevice r b c f)) s) ∨
        (s.opState = .idle ∧ deviceSpecMatches s.cfg r b c f = true ∧ t = { s with opState := .run }) ∨
        (s.opState = .idle ∧ deviceSpecMatches s.cfg r b c f = false ∧
          t = takeFault .negotiation .C (encode (.openDevice r b c f)) s)) := by
  unfold execOpenDevice
  rw [accepted_eq_next]
  cases hs : s.opState <;> cases hm : deviceSpecMatches s.cfg r b c f <;>
    simp [raise_eq_next, next_eq_next, Instr.port, -Host.Outcome.next.injEq]

theorem execCloseDevice_next {s t : State} : execCloseDevice s = .next t ↔ s.cfg.wf = true ∧
    ((s.opState = .idle ∧ t = takeFault .state .C (encode .closeDevice) s) ∨
      (s.opState = .run ∧ t = { s with opState := .idle })) := by
  unfold execCloseDevice
  rw [accepted_eq_next]
  cases hs : s.opState <;> simp [raise_eq_next, next_eq_next, Instr.port, -Host.Outcome.next.injEq]

theorem execRdstat_next {sel : BitVec 4} {s t : State} : execRdstat sel s = .next t ↔
    s.cfg.wf = true ∧ ((∃ w, statusValue sel s = some w ∧ t = respond w s) ∨
      (statusValue sel s = none ∧ s.opState ≠ .fault ∧
        t = takeFault .field .C (encode (.rdstat sel)) s)) := by
  unfold execRdstat
  cases hv : statusValue sel s with
  | none =>
    rw [accepted_eq_next]
    simp [raise_eq_next, Instr.port, -Host.Outcome.next.injEq]
  | some w =>
    rw [configured_eq_next, next_eq_next]
    simp

theorem execPull_next {nb : BitVec 32} {s t : State} : execPull nb s = .next t ↔
    s.cfg.wf = true ∧
      ((s.opState = .idle ∧ t = takeFault .state .A (encode (.pull nb)) s) ∨
        (s.opState = .run ∧ nb.toNat % 2 ≠ 0 ∧ t = takeFault .align .A (encode (.pull nb)) s) ∨
        (s.opState = .run ∧ nb.toNat % 2 = 0 ∧ s.cfg.tapeLen < nb.toNat ∧
          t = takeFault .length .A (encode (.pull nb)) s) ∨
        (s.opState = .run ∧ nb.toNat % 2 = 0 ∧ nb.toNat ≤ s.cfg.tapeLen ∧
          pullBytes nb.toNat s = .ok t)) := by
  unfold execPull
  rw [accepted_eq_next]
  cases hs : s.opState with
  | idle => simp [raise_eq_next, Instr.port, -Host.Outcome.next.injEq]
  | fault => simp
  | run =>
    by_cases h2 : nb.toNat % 2 = 0
    · by_cases hn : s.cfg.tapeLen < nb.toNat
      · simp [h2, hn, raise_eq_next, Instr.port]
      · simp [h2, hn, finish_eq_next, Nat.le_of_not_lt hn]
    · simp [h2, raise_eq_next, Instr.port]

/-! ### The step -/

/-- The word of a decoded command is the command's encoding, on its port. -/
theorem runWord_of_ok {p : Port} {w : Word} {i : Instr} {s : State} (h : decode p w = .ok i) :
    runWord p w s = exec i s := by
  simp only [runWord, h]

theorem runWord_of_error {p : Port} {w : Word} {c : Cause} {s : State} (h : decode p w = .error c) :
    runWord p w s = accepted s (.next (takeFault c p w s)) := by
  simp only [runWord, h]

/-- Every way a step can answer a next state: waiting, reset, a decode fault, or a command executed. -/
theorem step_next_cases {s t : State} (h : step s = .next t) :
    s.cfg.wf = true ∧
      ((s.inputs = [] ∧ t = s) ∨
        (∃ rest, s.inputs = .reset :: rest ∧ t = takeReset { s with inputs := rest }) ∨
        (∃ p w rest c, s.inputs = .command p w :: rest ∧ decode p w = .error c ∧ s.opState ≠ .fault ∧
          t = takeFault c p w { s with inputs := rest }) ∨
        (∃ p w rest i, s.inputs = .command p w :: rest ∧ decode p w = .ok i ∧
          exec i { s with inputs := rest } = .next t)) := by
  unfold step takeInput at h
  split at h
  · rename_i hi
    obtain ⟨hc, hn⟩ := configured_eq_next.1 h
    exact ⟨hc, .inl ⟨hi, (Host.Outcome.next.inj hn).symm⟩⟩
  · rename_i x rest hi
    cases x with
    | reset =>
      obtain ⟨hc, hn⟩ := configured_eq_next.1 h
      exact ⟨hc, .inr (.inl ⟨rest, hi, (Host.Outcome.next.inj hn).symm⟩)⟩
    | command p w =>
      simp only [runInput] at h
      rcases hd : decode p w with c | i
      · rw [runWord_of_error hd] at h
        obtain ⟨hc, hf, hn⟩ := accepted_eq_next.1 h
        exact ⟨hc, .inr (.inr (.inl ⟨p, w, rest, c, hi, hd, hf, (Host.Outcome.next.inj hn).symm⟩))⟩
      · rw [runWord_of_ok hd] at h
        refine ⟨?_, .inr (.inr (.inr ⟨p, w, rest, i, hi, hd, h⟩))⟩
        cases i with
        | pull n => exact (execPull_next.1 h).1
        | openDevice r b c f => exact (execOpenDevice_next.1 h).1
        | closeDevice => exact (execCloseDevice_next.1 h).1
        | seth c => exact (execSeth_next.1 h).1
        | setc c => exact (execSetc_next.1 h).1
        | vinc => exact (execVinc_next.1 h).1
        | vdec => exact (execVdec_next.1 h).1
        | trige => exact (execTrige_next.1 h).1
        | trigs => exact (execTrigs_next.1 h).1
        | rdstat sel => exact (execRdstat_next.1 h).1

end Sys2Proof.Machine
end

