-- ==== Sys2Proof/Tests/Slice0.lean ====
section
/-! SUPPORT. The model's own tests, each about one step or one operation, with the place of the spec each
expected value comes from; then one witness per statement, a state and operands that meet its
hypotheses. -/

namespace Sys2Proof.Tests

open Sys2Proof.Machine

/-! ## Small states -/

/-- Test configuration T1 of `95_test_vectors.md`. -/
def t1 : Cfg :=
  { sampleRateHz := 8, deviceBufSamples := 512, tapeLen := 8, aMax := 1000, freqBaseHz := 1,
    maxCount := 4, envPeriodS := 1, susPeriodS := 2, satPolicy := .saturate }

/-- An ill-formed configuration: an odd tape length (R8, R9). -/
def oddTape : Cfg := { t1 with tapeLen := 7 }

def idle : State := State.resetOf t1
def run : State := { idle with opState := .run }
def faulted : State := { idle with opState := .fault, fcause := 3, finfo := 0x2100000000000000#64, fport := 1 }

/-- The tape `A0 A1 ... A7` of the vectors V-RING. -/
def ringTape : List Host.Cell :=
  [(0, 0xA0), (1, 0xA1), (2, 0xA2), (3, 0xA3), (4, 0xA4), (5, 0xA5), (6, 0xA6), (7, 0xA7)]

/-- A block in `RUN` on that tape. -/
def ring (c : Nat) : State := { run with tape := ringTape, cursor := c }

/-- A draw as a test writes it. -/
def draw (q : Rat) (h : -1/2 ≤ q ∧ q ≤ 1/2 := by norm_num) : Draw := ⟨q, h⟩

/-- The next state of an outcome, where there is one. -/
def nextOf : Host.Outcome State Fault Refusal → Option State
  | .next s => some s
  | .fault _ => none
  | .refused _ => none

/-- `STATUS` after an outcome. -/
def statusAfter (o : Host.Outcome State Fault Refusal) : Option Word := (nextOf o).map State.statusWord

/-! ## WellFormed refuses each ill-formed term (R85, R88) -/

theorem test_seth_code_65537_ill_formed : (Instr.seth 65537).wf = false := by decide
theorem test_setc_code_131071_ill_formed : (Instr.setc 131071).wf = false := by decide
theorem test_rdstat_8_ill_formed : (Instr.rdstat 8).wf = false := by decide
theorem test_seth_code_65536_well_formed : (Instr.seth 65536).wf = true := by decide
theorem test_odd_tape_ill_formed : oddTape.wf = false := by decide
theorem test_fast_voice_ill_formed : ({ t1 with freqBaseHz := 3 } : Cfg).wf = false := by decide

/-! ## Decoding, words written out from R83 and R86, bits 63 down to 0 -/

theorem test_decode_pull : decode .A
    0b0001000000000000000000000000000000000000000000000000000000000110#64 = .ok (.pull 6) := by decide
theorem test_decode_open : decode .C
    0b0010000000010001000000100000000000000000000000001010110001000100#64 =
      .ok (.openDevice 44100 512 1 1) := by decide
theorem test_decode_open_fields_apart :
    decode .C 0x2021030400000005#64 = .ok (.openDevice 5 0x304 1 2) := by decide
theorem test_decode_close : decode .C 0x2100000000000000#64 = .ok .closeDevice := by decide
theorem test_decode_seth : decode .C
    0b0011000000000000000000000000000000000000000000001000000000000000#64 = .ok (.seth 0x8000) := by
  decide
theorem test_decode_setc : decode .C 0x3100000000010000#64 = .ok (.setc 0x10000) := by decide
theorem test_decode_vinc : decode .C
    0b0100000000000000000000000000000000000000000000000000000000000000#64 = .ok .vinc := by decide
theorem test_decode_vdec : decode .C 0x4100000000000000#64 = .ok .vdec := by decide
theorem test_decode_trige : decode .C 0x5000000000000000#64 = .ok .trige := by decide
theorem test_decode_trigs : decode .C 0x5100000000000000#64 = .ok .trigs := by decide
theorem test_decode_rdstat : decode .C
    0b0110000000000000000000000000000000000000000000000000000000000001#64 = .ok (.rdstat 1) := by decide
/-- V-DEC: `PULL` on port C, `VINC` on port A, the zero word. -/
theorem test_wrong_port_or_opcode : decode .C 0x1000000000000006#64 = .error .opcode ∧
    decode .A 0x4000000000000000#64 = .error .opcode ∧ decode .A 0#64 = .error .opcode ∧
    decode .C 0#64 = .error .opcode ∧ decode .C 0xFF00000000000000#64 = .error .opcode := by decide
/-- V-DEC: reserved bits, a code and a selector out of range. -/
theorem test_bad_fields : decode .C 0x4000000000000001#64 = .error .field ∧
    decode .C 0x3000000000010001#64 = .error .field ∧ decode .C 0x3000000000020000#64 = .error .field ∧
    decode .C 0x6000000000000008#64 = .error .field ∧ decode .C 0x6000000000000010#64 = .error .field ∧
    decode .A 0x1000000100000007#64 = .error .field := by decide
theorem test_table_words : decodeTableWord 64 0x1000000000000006 = some (.pull 6) ∧
    decodeTableWord 64 0x6000000000000007 = some (.rdstat 7) ∧
    decodeTableWord 64 0x0000000000000000 = none := by decide
/-- R91: the opcode byte travels last. -/
theorem test_bytes_of_word : bytesOfWord 0x201102000000AC44#64 =
    [0x44, 0xAC, 0x00, 0x00, 0x00, 0x02, 0x11, 0x20] := by decide
theorem test_seven_bytes_carry_no_word :
    decodeBytes .C [0, 0, 0, 0, 0, 0, 0x40] = .error .notOneWord := by decide

/-! ## Internal operations, vectors of `95_test_vectors.md` -/

/-- V-SAW. -/
theorem test_saw : saw 0 = -1/2 ∧ saw (3/4) = 1/4 := by decide +kernel
/-- V-PH: a sum of exactly 1; the remainder kept; increment 1; outside the contract. -/
theorem test_phadv : phadv (7/8) 1 8 = 0 ∧ phadv (15/16) 1 8 = 1/16 ∧ phadv (1/2) 8 8 = 1/2 ∧
    phadv (1/2) 16 8 = 3/2 := by decide +kernel
/-- V-ENV: clamp and disable past 1; the period of `TRIGS`. -/
theorem test_envadv : (envadv { run with envPh := 15/16, envEn := true }).envPh = 1 ∧
    (envadv { run with envPh := 15/16, envEn := true }).envEn = false ∧
    (envadv { run with envPh := 0, envEn := true, envSel := true }).envPh = 1/16 := by decide +kernel
/-- V-CAST. -/
theorem test_cast16 : (cast16 (-1375/2) run).1 = -687 ∧ (cast16 (-98305/3) run).1 = -32768 ∧
    (cast16 (-98305/3) run).2.ovf = false ∧ (cast16 40000 run).1 = 32767 ∧
    (cast16 40000 run).2.ovf = true := by decide +kernel
theorem test_cast16_wrap : (cast16 40000 { run with cfg := { t1 with satPolicy := .wrap } }).1 = -25536 ∧
    (cast16 (-32769) { run with cfg := { t1 with satPolicy := .wrap } }).1 = 32767 := by decide +kernel
/-- V-PCM. -/
theorem test_pcmenc : pcmenc 4660 = (0x34, 0x12) ∧ pcmenc (-328) = (0xB8, 0xFE) ∧
    pcmenc (-32768) = (0x00, 0x80) ∧ pcmdec 0x0C 0xFE = -500 := by decide
/-- The sample and the phases of one `MIX`. -/
def mixView (xi : Draw) (s : State) : Option (Int × List Rat × Rat) :=
  match mix xi s with
  | .ok (v, t) => some (v, t.ph, t.envPh)
  | .error _ => none
/-- V-MIX, third row. -/
theorem test_mix_three_voices : mixView (draw (1/2))
    { run with vcount := 3, height := 0x8000, cdist := 0x10000, envPh := 0, envEn := true } =
      some (-1250, [1/16, 1/8, 3/16, 0], 1/8) := by decide +kernel
/-- V-MIX, fourth row: silent voices still advance, the noise is not enveloped. -/
theorem test_mix_noise_only : mixView (draw (-1/2)) { run with height := 0x10000, cdist := 0x10000 } =
    some (-250, [1/8, 0, 0, 0], 1) := by decide +kernel

/-! ## One step per command -/

/-- V-RING, cursor 6, `PULL 6`: two segments, the cursor at 4. -/
theorem test_pull_wraps : (nextOf (exec (.pull 6) { ring 6 with draws := [draw 0, draw 0, draw 0] })).map
    (fun t => (t.audioOut, t.cursor)) = some ([0xA6, 0xA7, 0xA0, 0xA1, 0xA2, 0xA3], 4) := by
  decide +kernel
/-- P1, second `PULL`: samples -78, 0, 46 written at 6, 0, 2. -/
theorem test_pull_refills : (nextOf (exec (.pull 6) { run with
      ph := [3/8, 0, 0, 0], height := 0x10000, envPh := 3/8, envEn := true, cursor := 6,
      tape := [(0, 0x0C), (1, 0xFE), (2, 0xB8), (3, 0xFE), (4, 0x45), (5, 0xFF)],
      draws := [draw 0, draw 0, draw 0] })).map (fun t => (t.tape, t.ph, t.envPh)) =
    some ([(2, 0x2E), (4, 0x45), (5, 0xFF), (6, 0xB2), (7, 0xFF)], [3/4, 0, 0, 0], 3/4) := by
  decide +kernel
/-- V-DEC, states and `STATUS` after. -/
theorem test_open_matches : statusAfter (exec (.openDevice 8 512 1 1) idle) = some 0x001#64 := by decide
theorem test_open_two_channels :
    statusAfter (exec (.openDevice 8 512 2 1) idle) = some 0x2C2#64 := by decide
theorem test_close_in_idle_faults : statusAfter (exec .closeDevice idle) = some 0x262#64 := by decide
theorem test_close_in_run : statusAfter (exec .closeDevice run) = some 0x000#64 := by decide
theorem test_pull_odd_reports_align : statusAfter (exec (.pull 9) run) = some 0x082#64 := by decide
theorem test_pull_too_long : statusAfter (exec (.pull 10) run) = some 0x0A2#64 := by decide
theorem test_seth : (nextOf (exec (.seth 0x8000) idle)).map State.height = some 0x8000 := by decide
theorem test_setc : (nextOf (exec (.setc 0x10000) run)).map State.cdist = some 0x10000 := by decide
/-- V-VC. -/
theorem test_vinc_wraps : (nextOf (exec .vinc { run with vcount := 4 })).map State.vcount = some 1 := by
  decide
theorem test_vdec_wraps : (nextOf (exec .vdec idle)).map State.vcount = some 4 := by decide
theorem test_trige : statusAfter (exec .trige run) = some 0x005#64 := by decide
theorem test_trigs : statusAfter (exec .trigs idle) = some 0x00C#64 := by decide
/-- V-SYS: the tape length, and `FINFO` in `FAULT` (P3b form). -/
theorem test_rdstat : (nextOf (exec (.rdstat 6) idle)).map State.responses = some [8#64] ∧
    (nextOf (exec (.rdstat 5) faulted)).map State.responses = some [0x2100000000000000#64] := by decide
/-- V-DEC: a word that is no command, through the step. -/
theorem test_step_bad_word : statusAfter (step { idle with inputs := [.command .C 0x4000000000000001#64] }) =
    some 0x242#64 := by decide
/-- R259: discarded words have no step, `RDSTAT` has. -/
theorem test_fault_discards : nextOf (step { faulted with inputs := [.command .C 0x4000000000000000#64] }) = none ∧
    statusAfter (step { faulted with inputs := [.command .C 0x6000000000000000#64] }) = some 0x262#64 := by
  decide
theorem test_reset_leaves_fault : statusAfter (step { faulted with inputs := [.reset] }) = some 0#64 := by
  decide
theorem test_first_step_from_reset : (nextOf (step (State.reset.withFetchWord 64 0x4000000000000000))).map
    State.vcount = some 2 := by decide

/-! ## Witnesses: a state and operands that meet each statement's hypotheses -/

/-- The invariants hold of a small state given its plain facts. -/
theorem inv_of {s : State} (h1 : s.cfg.wf = true) (h2 : s.ph.length = s.cfg.maxCount)
    (h3 : s.ph = List.replicate 4 0) (h4 : 1 ≤ s.vcount ∧ s.vcount ≤ s.cfg.maxCount)
    (h5 : s.cursor < s.cfg.tapeLen ∧ s.cursor % 2 = 0) (h6 : s.envPh = 1)
    (h7 : codeLegal s.height = true ∧ codeLegal s.cdist = true)
    (h8 : (s.opState = .fault ↔ s.fcause ≠ 0) ∧ (s.fcause = 0 → s.finfo = 0 ∧ s.fport = 0))
    (h9 : Memory.wf s.tape ∧ ∀ c ∈ s.tape, c.1 < s.cfg.tapeLen) : s.Inv where
  cfgWf := h1
  phCount := h2
  phRange p hp := by
    rw [h3] at hp
    rw [List.eq_of_mem_replicate hp]
    norm_num
  vcountRange := h4
  cursorRange := h5.1
  cursorEven := h5.2
  envRange := by
    rw [h6]
    norm_num
  envDone _ := h6
  heightLegal := h7.1
  cdistLegal := h7.2
  faultHeld := h8.1
  faultClear := h8.2
  tapeWf := h9.1
  tapeBounds := h9.2

theorem idle_inv : idle.Inv := inv_of (by decide) rfl rfl (by decide) (by decide) rfl (by decide) (by decide) (by decide)
theorem run_inv : run.Inv := inv_of (by decide) rfl rfl (by decide) (by decide) rfl (by decide) (by decide) (by decide)
theorem faulted_inv : faulted.Inv :=
  inv_of (by decide) rfl rfl (by decide) (by decide) rfl (by decide) (by decide) (by decide)
theorem ring_inv : (ring 6).Inv := inv_of (by decide) rfl rfl (by decide) (by decide) rfl (by decide) (by decide) (by decide)

/-- `run` with one word presented. -/
def presented (p : Port) (w : Word) : State := { run with inputs := [.command p w] }

theorem presented_inv (p : Port) (w : Word) : (presented p w).Inv :=
  ⟨run_inv.cfgWf, run_inv.phCount, run_inv.phRange, run_inv.vcountRange, run_inv.cursorRange,
    run_inv.cursorEven, run_inv.envRange, run_inv.envDone, run_inv.heightLegal, run_inv.cdistLegal,
    run_inv.faultHeld, run_inv.faultClear, run_inv.tapeWf, run_inv.tapeBounds⟩

theorem run_stream : (presented .C 0x4000000000000000#64).StreamInv := ⟨by decide, by decide⟩

theorem witness_DecodeOfEncodeIsTheCommand :
    (Instr.seth 65536).wf = true ∧ (Instr.rdstat 7).wf = true ∧ (Instr.pull 0xFFFFFFFF).wf = true := by decide
theorem witness_EncodeOfDecodeIsTheWord :
    decode .A 0x10000000FFFFFFFF#64 = .ok (.pull 0xFFFFFFFF) := by decide
theorem witness_OperandsAreTheBitsOfTheirFields :
    decode .A 0x1000000000000006#64 = .ok (.pull 6) ∧
    decode .C 0x2021030400000005#64 = .ok (.openDevice 5 0x304 1 2) ∧
    decode .C 0x3000000000010000#64 = .ok (.seth 65536) ∧
    decode .C 0x3100000000010000#64 = .ok (.setc 65536) ∧
    decode .C 0x6000000000000007#64 = .ok (.rdstat 7) := by decide
theorem witness_IllegalOpcodesRaiseOpcodeFault : run.cfg.wf = true ∧ run.opState ≠ .fault ∧
    ¬ ((0x4000000000000000#64).toNat / 2 ^ 56 = 0x10) ∧
    ¬ ((0x1000000000000006#64).toNat / 2 ^ 56 ∈ [0x20, 0x21, 0x30, 0x31, 0x40, 0x41, 0x50, 0x51, 0x60]) := by
  decide
theorem witness_ReservedBitsAndRangesRaiseFieldFault :
    lookupOp .A (opField 0x1000000100000000#64) = some .pull ∧
    lookupOp .C (opField 0x3000000000010001#64) = some .seth ∧
    lookupOp .C (opField 0x6000000000000008#64) = some .rdstat ∧
    lookupOp .C (opField 0x20FFFFFFFFFFFFFF#64) = some .openDevice ∧ run.cfg.wf = true ∧
    run.opState ≠ .fault ∧ 65536 < (0x3000000000010001#64).toNat % 2 ^ 17 ∧
    7 < (0x6000000000000008#64).toNat % 2 ^ 4 := by decide
theorem witness_StepRunsTheDecodedCommand :
    (presented .C 0x4000000000000000#64).inputs = .command .C 0x4000000000000000#64 :: [] ∧
    decode .C 0x4000000000000000#64 = .ok .vinc := by decide
theorem witness_StepWaitsWithoutInput : idle.cfg.wf = true ∧ idle.inputs = [] := by decide
theorem witness_ResetIsTakenInEveryState : ({ faulted with inputs := [.reset] } : State).cfg.wf = true ∧
    ({ faulted with inputs := [.reset] } : State).inputs = .reset :: [] := by decide
theorem witness_IllFormedConfigurationIsRefused :
    ¬ (0 < (State.resetOf oddTape).cfg.sampleRateHz ∧ 0 < (State.resetOf oddTape).cfg.deviceBufSamples ∧
      2 ≤ (State.resetOf oddTape).cfg.tapeLen ∧ (State.resetOf oddTape).cfg.tapeLen % 2 = 0 ∧
      0 < (State.resetOf oddTape).cfg.aMax ∧ 0 < (State.resetOf oddTape).cfg.freqBaseHz ∧
      1 ≤ (State.resetOf oddTape).cfg.maxCount ∧ 0 < (State.resetOf oddTape).cfg.envPeriodS ∧
      0 < (State.resetOf oddTape).cfg.susPeriodS ∧ (State.resetOf oddTape).cfg.freqBaseHz *
        (State.resetOf oddTape).cfg.maxCount ≤ (State.resetOf oddTape).cfg.sampleRateHz) :=
  fun h => absurd h.2.2.2.1 (by decide)
theorem witness_ResetMeetsTheInvariants : t1.wf = true ∧ Cfg.atReset.wf = true := by decide
theorem witness_EveryStepKeepsTheInvariants : (presented .C 0x4000000000000000#64).Inv ∧
    step (presented .C 0x4000000000000000#64) = .next { run with vcount := 2 } :=
  ⟨presented_inv _ _, rfl⟩
theorem witness_EveryStepKeepsTheStreamLaw : (presented .C 0x4000000000000000#64).Inv ∧
    (presented .C 0x4000000000000000#64).StreamInv ∧
    step (presented .C 0x4000000000000000#64) = .next { run with vcount := 2 } :=
  ⟨presented_inv _ _, run_stream, rfl⟩
theorem witness_TheOnlyStopIsDiscarding : ({ faulted with inputs := [.command .C 0#64] } : State).Inv ∧
    step { faulted with inputs := [.command .C 0#64] } = .fault .discarded :=
  ⟨inv_of (by decide) rfl rfl (by decide) (by decide) rfl (by decide) (by decide) (by decide), rfl⟩
theorem witness_SawtoothRangeAndMonotone : (0 : Rat) ≤ 1 ∧ (1 : Rat) ≤ 1 ∧ (0 : Rat) < 1 := by norm_num
theorem witness_PhaseAdvanceIsModuloOne : (0 : Rat) ≤ 7/8 ∧ (7/8 : Rat) < 1 ∧ (0 : Rat) < 8 ∧ (0 : Rat) ≤ 8 ∧
    (8 : Rat) ≤ 8 ∧ (1 : Rat) ≤ 7/8 + 8/8 ∧ run.Inv ∧ 0 < run.vcount :=
  ⟨by norm_num, by norm_num, by norm_num, by norm_num, by norm_num, by norm_num, run_inv, by decide⟩
theorem witness_PhaseAfterManySamplesIsExact : (0 : Rat) ≤ 15/16 ∧ (15/16 : Rat) < 1 ∧ (0 : Rat) < 8 ∧
    (0 : Rat) ≤ 0 ∧ (0 : Rat) ≤ 8 := by norm_num
theorem witness_PhasePeriodIsTheDenominator : (0 : Rat) ≤ 0 ∧ (0 : Rat) < 1 ∧ (0 : Rat) < 8 ∧ 0 < 3 ∧ 3 ≤ 8 ∧
    Nat.Coprime 3 8 ∧ (3 : Rat) / 8 = ((3 : Nat) : Rat) / (8 : Nat) ∧ 0 < 44100 ∧ 44100 ≤ 44100 := by
  refine ⟨?_, ?_, ?_, ?_, ?_, ?_, ?_, ?_, ?_⟩ <;> norm_num
theorem witness_ReleaseLastsItsPeriod : run.Inv ∧ ([] : List Draw).length <
    ⌈run.cfg.envPeriodS * run.cfg.sampleRateHz⌉₊ ∧
    ⌈run.cfg.envPeriodS * run.cfg.sampleRateHz⌉₊ ≤ (List.replicate 8 (draw 0)).length := by
  have h : run.cfg.envPeriodS * run.cfg.sampleRateHz = ((8 : Nat) : Rat) := by
    simp [run, idle, t1, State.resetOf]
  rw [h, Nat.ceil_natCast]
  exact ⟨run_inv, by simp, by simp⟩
theorem witness_EnvelopeNeverRearmsItself : (presented .C 0x4000000000000000#64).envEn = false ∧
    step (presented .C 0x4000000000000000#64) = .next { run with vcount := 2 } ∧
    (∀ rest, (presented .C 0x4000000000000000#64).inputs ≠ .reset :: rest) ∧
    (∀ p w rest, (presented .C 0x4000000000000000#64).inputs = .command p w :: rest →
      decode p w ≠ .ok .trige ∧ decode p w ≠ .ok .trigs) := by
  refine ⟨rfl, rfl, ?_, ?_⟩
  · intro rest h
    cases h
  · intro p w rest h
    cases h
    decide
theorem witness_MixFollowsItsFormula : ({ run with vcount := 4 } : State).vcount ≤
    ({ run with vcount := 4 } : State).ph.length := by decide
theorem witness_MixValueStaysInItsBound : run.Inv := run_inv
theorem witness_CastTruncatesThenFollowsThePolicy : (0 : Rat) ≤ 0 ∧ (-32768 ≤ trunc 32767 ∧ trunc 32767 ≤ 32767) ∧
    ¬ (-32768 ≤ trunc 32768 ∧ trunc 32768 ≤ 32767) ∧ run.cfg.satPolicy = .saturate ∧
    ({ t1 with satPolicy := .wrap } : Cfg).satPolicy = .wrap := by decide +kernel
theorem witness_HeadroomRulesOutOverflow : ({ presented .C 0x4000000000000000#64 with ovf := true } : State).Inv ∧
    t1.aMax * t1.maxCount / 2 + t1.aMax / 4 ≤ 32767 ∧
    step { presented .C 0x4000000000000000#64 with ovf := true } = .next { run with vcount := 2, ovf := true } :=
  ⟨inv_of (by decide) rfl rfl (by decide) (by decide) rfl (by decide) (by decide) (by decide),
    by decide +kernel, rfl⟩
theorem witness_OverflowFlagIsSticky :
    step { presented .C 0x4000000000000000#64 with ovf := true } = .next { run with vcount := 2, ovf := true } ∧
    (∀ rest, (presented .C 0x4000000000000000#64).inputs ≠ .reset :: rest) ∧
    (∀ w rest, (presented .C 0x4000000000000000#64).inputs ≠ .command .A w :: rest) := by
  refine ⟨rfl, ?_, ?_⟩
  · intro rest h
    cases h
  · intro w rest h
    cases h
theorem witness_TriggersRearmTheEnvelope : idle.cfg.wf = true ∧ idle.opState ≠ .fault ∧ run.cfg.wf = true ∧
    run.opState ≠ .fault := by decide
theorem witness_ControlCodesAreWrittenWhole : run.cfg.wf = true ∧ run.opState ≠ .fault ∧
    (65536 : BitVec 17).toNat ≤ 65536 ∧ 65536 < (65537 : BitVec 17).toNat := by decide
theorem witness_VoiceCountStepsWithItsWrap : run.cfg.wf = true ∧ run.opState ≠ .fault ∧
    1 ≤ run.vcount ∧ run.vcount ≤ run.cfg.maxCount ∧
    ({ run with vcount := 4 } : State).vcount ≤ run.cfg.maxCount := by decide
theorem witness_VoiceStepsUndoEachOther : run.Inv ∧ run.opState ≠ .fault := ⟨run_inv, by decide⟩
theorem witness_OpenNegotiatesTheDeviceSpec : idle.cfg.wf = true ∧ idle.opState = .idle ∧
    run.opState = .run ∧ ((8 : BitVec 32).toNat = idle.cfg.sampleRateHz ∧ (1 : BitVec 4).toNat = 1 ∧
      (512 : BitVec 16).toNat = idle.cfg.deviceBufSamples) ∧
    (4096 : BitVec 16).toNat ≠ idle.cfg.deviceBufSamples := by decide
theorem witness_CloseReturnsToIdle : run.cfg.wf = true ∧ run.opState = .run ∧ idle.cfg.wf = true ∧
    idle.opState = .idle := by decide
theorem witness_RdstatAnswersTheSelectedValue : run.cfg.wf = true ∧ (7 : BitVec 4).toNat ≤ 7 ∧
    7 < (8 : BitVec 4).toNat ∧ run.opState ≠ .fault ∧ faulted.cfg.wf = true ∧ faulted.opState = .fault := by decide
theorem witness_AcceptanceByState : run.cfg.wf = true ∧ (Instr.closeDevice).wf = true ∧ run.fcause ≠ 3 ∧
    run.opState ≠ .fault ∧ idle.opState = .idle ∧ faulted.cfg.wf = true ∧ faulted.opState = .fault ∧
    (Instr.rdstat 7).wf = true ∧ exec .closeDevice run = .next idle :=
  by
  refine ⟨?_, ?_, ?_, ?_, ?_, ?_, ?_, ?_, rfl⟩ <;> decide
theorem witness_FaultEntryIsPrecise : (presented .C 0#64).opState ≠ .fault ∧
    step (presented .C 0#64) = .next { run with opState := .fault, fcause := 1, finfo := 0, fport := 1 } :=
  ⟨by decide, rfl⟩
theorem witness_FaultPriorityIsFixed : run.Inv ∧ idle.Inv ∧ run.opState ≠ .fault ∧ idle.opState ≠ .fault ∧
    run.opState = .run ∧ idle.opState = .idle ∧
    decode .C 0#64 = .error .opcode ∧ decode .A 0x1000000000000007#64 = .ok (.pull 7) ∧
    (7 : BitVec 32).toNat % 2 = 1 ∧ decode .A 0x100000000000000A#64 = .ok (.pull 10) ∧
    run.cfg.tapeLen < (10 : BitVec 32).toNat ∧ decode .A 0x1000000000000008#64 = .ok (.pull 8) ∧
    (8 : BitVec 32).toNat ≤ run.cfg.tapeLen ∧
    decode .C 0x2011020000000008#64 = .ok (.openDevice 8 512 1 1) ∧
    deviceSpecMatches idle.cfg 8 512 1 1 = true ∧
    decode .C 0x2011100000000008#64 = .ok (.openDevice 8 4096 1 1) ∧
    deviceSpecMatches idle.cfg 8 4096 1 1 = false ∧ lookupOp .C (opField 0#64) = none ∧
    lookupOp .A (opField 0x1000000100000007#64) = some .pull ∧
    fieldsLegal (Opcode.pull).format 0x1000000100000007#64 = false ∧
    decode .C 0x2100000000000000#64 = .ok .closeDevice ∧ decode .C 0x4000000000000000#64 = .ok .vinc :=
  ⟨run_inv, idle_inv, by decide⟩
theorem witness_FaultStateAnswersStatusOnly : faulted.cfg.wf = true ∧ faulted.opState = .fault ∧
    decode .C 0x6000000000000007#64 = .ok (.rdstat 7) ∧ decode .C 0x6000000000000008#64 = .error .field := by
  decide
theorem witness_LifecycleTransitions : step { idle with inputs := [.command .C 0x2011020000000008#64] } = .next run ∧
    step { run with inputs := [.command .C 0x2100000000000000#64] } = .next idle := ⟨rfl, rfl⟩
theorem witness_FaultOutShowsTheFaultState : faulted.Inv ∧ run.Inv ∧ faulted.faultOut = true ∧
    step faulted = .next faulted ∧ ∀ rest, faulted.inputs ≠ .reset :: rest :=
  ⟨faulted_inv, run_inv, rfl, rfl, fun _ h => by cases h⟩
theorem witness_PortCLeavesTapeAndCursor :
    (presented .C 0x4000000000000000#64).inputs = .command .C 0x4000000000000000#64 :: [] ∧
    step (presented .C 0x4000000000000000#64) = .next { run with vcount := 2 } := ⟨rfl, rfl⟩
theorem witness_PortALeavesTheControls :
    (presented .A 0x1000000000000000#64).inputs = .command .A 0x1000000000000000#64 :: [] ∧
    step (presented .A 0x1000000000000000#64) = .next run := ⟨rfl, rfl⟩
theorem witness_ConfigurationAndInputOrderAreKept :
    step (presented .A 0x1000000000000000#64) = .next run := rfl
theorem witness_SampleBytesAreABijection : (-32768 : Int) ≤ -32768 ∧ (32767 : Int) ≤ 32767 := by decide
theorem witness_TapeAccessPrimitives : Memory.wf (ring 6).tape ∧ 6 + 2 ≤ (ring 6).cfg.tapeLen ∧
    (ring 6).cfg.tapeLen < 6 + 3 := by decide
theorem witness_TapeWriterStoresItsSamples : (ring 6).Inv ∧ 6 + 2 * [draw 0].length ≤ (ring 6).cfg.tapeLen :=
  ⟨ring_inv, by decide⟩
theorem witness_DrainFollowsTheCursorLaw : (ring 6).Inv ∧ 8 % 2 = 0 ∧ 8 ≤ (ring 6).cfg.tapeLen :=
  ⟨ring_inv, by decide⟩
theorem witness_RefillRewritesItsRegion : (ring 6).Inv ∧ 6 % 2 = 0 ∧ 6 < (ring 6).cfg.tapeLen ∧
    2 * [draw 0, draw 0, draw 0].length = 6 ∧ 6 ≤ (ring 6).cfg.tapeLen :=
  ⟨ring_inv, by decide⟩
theorem witness_PullDeliversAndRefills : (ring 6).Inv ∧ (ring 6).opState = .run ∧
    (8 : BitVec 32).toNat % 2 = 0 ∧ (8 : BitVec 32).toNat ≤ (ring 6).cfg.tapeLen :=
  ⟨ring_inv, by decide⟩
theorem witness_PullOfNothingChangesNothing : (ring 6).cfg.wf = true ∧ (ring 6).opState = .run ∧
    (ring 6).cursor < (ring 6).cfg.tapeLen := by decide
theorem witness_TwoPullsAreOne : (ring 6).Inv ∧ (ring 6).opState = .run ∧ (2 : BitVec 32).toNat % 2 = 0 ∧
    (6 : BitVec 32).toNat % 2 = 0 ∧ (8 : BitVec 32).toNat = (2 : BitVec 32).toNat + (6 : BitVec 32).toNat ∧
    (8 : BitVec 32).toNat ≤ (ring 6).cfg.tapeLen :=
  ⟨ring_inv, by decide⟩
/-- `run` with two words of port A presented. -/
def twoPulls : State :=
  { run with inputs := [.command .A (encode (.pull 6)), .command .A (encode (.pull 2))] }
theorem witness_PullsLoseNothing : twoPulls.Inv ∧ twoPulls.opState = .run ∧
    (∀ n ∈ ([6, 2] : List (BitVec 32)), n.toNat % 2 = 0 ∧ n.toNat ≤ twoPulls.cfg.tapeLen) ∧
    twoPulls.inputs = ([6, 2] : List (BitVec 32)).map (fun n => Input.command .A (encode (.pull n))) ++ [] ∧
    twoPulls.cfg.tapeLen ∣ (([6, 2] : List (BitVec 32)).map BitVec.toNat).sum :=
  ⟨inv_of (by decide) rfl rfl (by decide) (by decide) rfl (by decide) (by decide) (by decide), by decide,
    by
      intro n hn
      simp only [List.mem_cons, List.not_mem_nil, or_false] at hn
      rcases hn with rfl | rfl
      · exact ⟨rfl, by decide⟩
      · exact ⟨rfl, by decide⟩, rfl, by decide⟩
theorem witness_OneDrawPerSample : run.Inv ∧ exec (.pull 0) run = .next run ∧ run.opState = .run ∧
    exec .vinc run = .next { run with vcount := 2 } ∧ (Instr.vinc).port = .C ∧
    ({ run with draws := [draw (1/2)] } : State).pullDraws 2 = [draw (1/2)] :=
  ⟨run_inv, rfl, rfl, rfl, rfl, rfl⟩
theorem witness_SilencedNoiseDoesNotLeak : (ring 6).Inv ∧ (ring 6).opState = .run ∧
    (8 : BitVec 32).toNat % 2 = 0 ∧ (8 : BitVec 32).toNat ≤ (ring 6).cfg.tapeLen ∧ (ring 6).cdist = 0 :=
  ⟨ring_inv, by decide⟩
theorem witness_SilentUntilTriggered : (ring 6).Inv ∧ (ring 6).opState = .run ∧
    (8 : BitVec 32).toNat % 2 = 0 ∧ (8 : BitVec 32).toNat ≤ (ring 6).cfg.tapeLen ∧
    (ring 6).envEn = false ∧ (ring 6).cdist = 0 :=
  ⟨ring_inv, by decide⟩

end Sys2Proof.Tests
end

section
/-! PROOFS. The scope and the step: an ill-formed configuration has no behaviour (R9), a step runs the
decoded command (R15, R61, R90), and headroom in the configuration rules out overflow (R10, R300).

The last one rests on three layers: sample generation keeps the invariants of R37, the mix value of a
state within them is at most `A_MAX * VCOUNT / 2 + A_MAX / 4` in magnitude (R152), and truncation does
not enlarge a magnitude, so that `CAST16` finds every sample in range. -/

namespace Sys2Proof.Machine

/-! ### Refusal of an ill-formed configuration (R9) -/

theorem configured_of_not_wf {s : State} {o : Host.Outcome State Fault Refusal}
    (h : ¬ s.cfg.wf = true) : configured s o = .refused .illFormedConfiguration := if_neg h

theorem accepted_of_not_wf {s : State} {o : Host.Outcome State Fault Refusal}
    (h : ¬ s.cfg.wf = true) : accepted s o = .refused .illFormedConfiguration := configured_of_not_wf h

theorem exec_of_not_wf (i : Instr) {s : State} (h : ¬ s.cfg.wf = true) :
    exec i s = .refused .illFormedConfiguration := by
  cases i with
  | rdstat sel =>
    change execRdstat sel s = _
    unfold execRdstat
    split
    · exact configured_of_not_wf h
    · exact accepted_of_not_wf h
  | _ => exact accepted_of_not_wf h

/-! ### The step, by the next input (R15, R61) -/

theorem step_of_no_input {s : State} (h : s.inputs = []) : step s = configured s (.next s) := by
  simp only [step, takeInput, h]

theorem step_of_reset {s : State} {rest : List Input} (h : s.inputs = .reset :: rest) :
    step s = configured { s with inputs := rest } (.next (takeReset { s with inputs := rest })) := by
  simp only [step, takeInput, h, runInput]

theorem step_of_command {s : State} {p : Port} {w : Word} {rest : List Input}
    (h : s.inputs = .command p w :: rest) : step s = runWord p w { s with inputs := rest } := by
  simp only [step, takeInput, h, runInput]

theorem runWord_of_not_wf (p : Port) (w : Word) {s : State} (h : ¬ s.cfg.wf = true) :
    runWord p w s = .refused .illFormedConfiguration := by
  rcases hd : decode p w with c | i
  · rw [runWord_of_error hd, accepted_of_not_wf h]
  · rw [runWord_of_ok hd, exec_of_not_wf i h]

theorem step_of_not_wf {s : State} (h : ¬ s.cfg.wf = true) :
    step s = .refused .illFormedConfiguration := by
  rcases hi : s.inputs with _ | ⟨_ | ⟨p, w⟩, rest⟩
  · rw [step_of_no_input hi, configured_of_not_wf h]
  · exact (step_of_reset hi).trans (configured_of_not_wf h)
  · exact (step_of_command hi).trans (runWord_of_not_wf p w h)

/-! ### Sample generation keeps the invariants (R37) -/

/-- One wrap is enough: an increment of at most one period keeps a phase in `[0,1)` (R121, R122). -/
theorem phadv_range {p f fs : Rat} (hp : 0 ≤ p ∧ p < 1) (hfs : 0 < fs) (hf : 0 ≤ f ∧ f ≤ fs) :
    0 ≤ phadv p f fs ∧ phadv p f fs < 1 := by
  have hinc0 : 0 ≤ f / fs := div_nonneg hf.1 hfs.le
  have hinc1 : f / fs ≤ 1 := (div_le_one hfs).2 hf.2
  unfold phadv wrapOnce
  split_ifs with h
  · constructor <;> linarith
  · constructor <;> linarith

theorem State.Inv.sampleRate_pos {s : State} (h : s.Inv) : (0 : Rat) < s.cfg.sampleRateHz := by
  exact_mod_cast ((Cfg.wf_iff _).1 h.cfgWf).1

theorem State.Inv.aMax_pos {s : State} (h : s.Inv) : 0 < s.cfg.aMax := by
  obtain ⟨-, -, -, -, ha, -⟩ := (Cfg.wf_iff _).1 h.cfgWf
  exact ha

/-- No voice of the bank is faster than the sample rate (R9, R122). -/
theorem State.Inv.voiceFrequency_range {s : State} (h : s.Inv) {i : Nat} (hi : i < s.cfg.maxCount) :
    0 ≤ voiceFrequency s i ∧ voiceFrequency s i ≤ s.cfg.sampleRateHz := by
  obtain ⟨-, -, -, -, -, hb, -, -, -, hrate⟩ := (Cfg.wf_iff _).1 h.cfgWf
  obtain ⟨hH0, hH1⟩ := h.heightValue_range
  have hi1 : (i : Rat) + 1 ≤ s.cfg.maxCount := by exact_mod_cast hi
  unfold voiceFrequency
  refine ⟨by positivity, ?_⟩
  calc s.heightValue * s.cfg.freqBaseHz * ((i : Rat) + 1)
      ≤ 1 * s.cfg.freqBaseHz * s.cfg.maxCount := by gcongr
    _ = s.cfg.freqBaseHz * s.cfg.maxCount := by rw [one_mul]
    _ ≤ s.cfg.sampleRateHz := hrate

/-- Advancing the active voices keeps every phase in `[0,1)` (R37, R122). -/
theorem State.Inv.advancedPhases_range {s : State} (h : s.Inv) (i k : Nat) :
    ∀ p ∈ advancedPhases s i k, 0 ≤ p ∧ p < 1 := by
  intro p hp
  obtain ⟨j, hj, rfl⟩ := List.mem_mapIdx.1 hp
  have hold := h.phRange _ (List.getElem_mem hj)
  split_ifs
  · exact phadv_range hold h.sampleRate_pos (h.voiceFrequency_range (h.phCount ▸ hj))
  · exact hold

/-- `ENVADV` keeps the envelope phase in `[0,1]`, at 1 wherever the envelope is disabled (R37, R131). -/
theorem State.Inv.envadv_range {s : State} (h : s.Inv) :
    (0 ≤ (envadv s).envPh ∧ (envadv s).envPh ≤ 1) ∧
      ((envadv s).envEn = false → (envadv s).envPh = 1) := by
  unfold envadv
  split_ifs with he hr
  · simp
  · have hinc := h.envIncrement_pos
    exact ⟨⟨add_nonneg h.envRange.1 hinc.le, (not_le.1 hr).le⟩, fun hf => nomatch he.symm.trans hf⟩
  · exact ⟨h.envRange, h.envDone⟩

/-- One sample, apart from the cast, keeps the invariants (R37, R151). -/
theorem State.Inv.afterSample {s : State} (h : s.Inv) : (afterSample s).Inv :=
  { h with
    phCount := (advancedPhases_length s 0 s.vcount).trans h.phCount
    phRange := h.advancedPhases_range 0 s.vcount
    envRange := h.envadv_range.1
    envDone := h.envadv_range.2 }

/-- `CAST16` touches `OVF` only, of which the invariants say nothing (R37, R157). -/
theorem State.Inv.cast16 {s : State} (h : s.Inv) (x : Rat) : (cast16 x s).2.Inv := by
  rw [cast16_frame]
  exact { h with }

/-- A run of samples keeps the invariants (R37, R182). -/
theorem State.Inv.generate {s : State} (h : s.Inv) (xs : List Draw) : (generate xs s).2.Inv := by
  induction xs generalizing s with
  | nil => exact h
  | cons xi xs ih =>
    rw [generate_cons xi xs h.voices]
    exact ih (h.afterSample.cast16 _)

/-! ### The bound on the mix value (R152) -/

theorem abs_saw_le {p : Rat} (hp : 0 ≤ p ∧ p < 1) : |saw p| ≤ 1 / 2 := by
  unfold saw
  rw [abs_le]
  constructor <;> linarith

/-- A phase register, or the 0 read where there is none, lies in `[0,1)`. -/
theorem State.Inv.getD_ph_range {s : State} (h : s.Inv) (i : Nat) :
    0 ≤ s.ph.getD i 0 ∧ s.ph.getD i 0 < 1 := by
  rw [List.getD_eq_getElem?_getD]
  rcases hp : s.ph[i]? with _ | p
  · simp
  · exact h.phRange p (List.mem_of_getElem? hp)

/-- Each of `k` voices adds at most `A_MAX / 2` in magnitude (R152). -/
theorem State.Inv.abs_voiceSum_le {s : State} (h : s.Inv) (i k : Nat) :
    |voiceSum s i k| ≤ k * (s.cfg.aMax / 2) := by
  have hA := h.aMax_pos
  have hterm : ∀ j ∈ Finset.range k, |saw (s.ph.getD (i + j) 0) * s.cfg.aMax| ≤ s.cfg.aMax / 2 := by
    intro j _
    rw [abs_mul, abs_of_pos hA]
    have := mul_le_mul_of_nonneg_right (abs_saw_le (h.getD_ph_range (i + j))) hA.le
    linarith
  calc |voiceSum s i k|
      ≤ ∑ j ∈ Finset.range k, |saw (s.ph.getD (i + j) 0) * s.cfg.aMax| := Finset.abs_sum_le_sum_abs _ _
    _ ≤ (Finset.range k).card • (s.cfg.aMax / 2) := Finset.sum_le_card_nsmul _ _ _ hterm
    _ = k * (s.cfg.aMax / 2) := by rw [Finset.card_range, nsmul_eq_mul]

/-- The noise term is at most `A_MAX / 4` in magnitude, whatever the draw (R112, R152). -/
theorem State.Inv.abs_noiseTerm_le {s : State} (h : s.Inv) (xi : Draw) :
    |noiseTerm xi s| ≤ s.cfg.aMax / 4 := by
  have hA := h.aMax_pos
  obtain ⟨hC0, hC1⟩ := h.cdistValue_range
  have hxi : |xi.val| ≤ 1 / 2 := abs_le.2 ⟨by linarith [xi.inRange.1], xi.inRange.2⟩
  have hscale : 0 ≤ s.cdistValue * s.cfg.aMax / 2 := by positivity
  unfold noiseTerm
  rw [abs_mul, abs_of_nonneg hscale]
  calc |xi.val| * (s.cdistValue * s.cfg.aMax / 2)
      ≤ 1 / 2 * (1 * s.cfg.aMax / 2) := by gcongr
    _ = s.cfg.aMax / 4 := by ring

/-- The release multiplier does not enlarge a magnitude (R130, R37). -/
theorem State.Inv.abs_envrel_le {s : State} (h : s.Inv) : |envrel s.envPh| ≤ 1 := by
  obtain ⟨h0, h1⟩ := h.envRange
  unfold envrel
  rw [abs_le]
  constructor <;> linarith

/-- R152: the mix value before the cast is at most `A_MAX * VCOUNT / 2 + A_MAX / 4` in magnitude. -/
theorem State.Inv.abs_mixValue_le {s : State} (h : s.Inv) (xi : Draw) :
    |mixValue xi s| ≤ s.cfg.aMax * s.vcount / 2 + s.cfg.aMax / 4 := by
  have hvoices : |voiceSum s 0 s.vcount * envrel s.envPh| ≤ s.cfg.aMax * s.vcount / 2 := by
    rw [abs_mul]
    calc |voiceSum s 0 s.vcount| * |envrel s.envPh|
        ≤ |voiceSum s 0 s.vcount| := mul_le_of_le_one_right (abs_nonneg _) h.abs_envrel_le
      _ ≤ s.vcount * (s.cfg.aMax / 2) := h.abs_voiceSum_le 0 s.vcount
      _ = s.cfg.aMax * s.vcount / 2 := by ring
  exact (abs_add_le _ _).trans (add_le_add hvoices (h.abs_noiseTerm_le xi))

/-! ### Truncation (R14) -/

theorem trunc_of_nonneg {q : Rat} (h : 0 ≤ q) : trunc q = ⌊q⌋ := by
  rw [trunc, Int.tdiv_eq_ediv_of_nonneg (Rat.num_nonneg.2 h), Rat.floor_def']

theorem trunc_neg (q : Rat) : trunc (-q) = -trunc q := by
  simp only [trunc, Rat.num_neg_eq_neg_num, Rat.den_neg_eq_den, Int.neg_tdiv]

/-- Truncation does not carry a value past an integer bound on its magnitude. -/
theorem abs_trunc_le {q : Rat} {n : Int} (h : |q| ≤ n) : |trunc q| ≤ n := by
  have key : ∀ {r : Rat}, 0 ≤ r → r ≤ n → |trunc r| ≤ n := by
    intro r h0 hn
    rw [trunc_of_nonneg h0, abs_of_nonneg (Int.floor_nonneg.2 h0)]
    exact_mod_cast (Int.floor_le r).trans hn
  obtain ⟨hlo, hhi⟩ := abs_le.1 h
  rcases le_total 0 q with h0 | h0
  · exact key h0 hhi
  · rw [← abs_neg, ← trunc_neg]
    exact key (by linarith) (by linarith)

theorem inSampleRange_trunc {q : Rat} (h : |q| ≤ 32767) : inSampleRange (trunc q) = true := by
  obtain ⟨hlo, hhi⟩ := abs_le.1 (abs_trunc_le (n := 32767) (by exact_mod_cast h))
  exact decide_eq_true ⟨by omega, hhi⟩

/-! ### Headroom (R10, R300) -/

/-- The amplitude headroom of R300: the largest mix value that the configuration admits is a 16-bit
sample. -/
def HasHeadroom (c : Cfg) : Prop := c.aMax * c.maxCount / 2 + c.aMax / 4 ≤ 32767

/-- With headroom every mix value is cast in range. -/
theorem State.Inv.mixValue_in_range {s : State} (h : s.Inv) (hc : HasHeadroom s.cfg) (xi : Draw) :
    inSampleRange (trunc (mixValue xi s)) = true := by
  have hv : (s.vcount : Rat) ≤ s.cfg.maxCount := by exact_mod_cast h.vcountRange.2
  have hA := h.aMax_pos
  refine inSampleRange_trunc ?_
  calc |mixValue xi s|
      ≤ s.cfg.aMax * s.vcount / 2 + s.cfg.aMax / 4 := h.abs_mixValue_le xi
    _ ≤ s.cfg.aMax * s.cfg.maxCount / 2 + s.cfg.aMax / 4 := by gcongr
    _ ≤ 32767 := hc

/-- With headroom a run of samples leaves `OVF` as it was, whatever the draws. -/
theorem State.Inv.generate_ovf {s : State} (h : s.Inv) (hc : HasHeadroom s.cfg) (xs : List Draw) :
    (Machine.generate xs s).2.ovf = s.ovf := by
  induction xs generalizing s with
  | nil => rfl
  | cons xi xs ih =>
    have hcast : (Machine.cast16 (mixValue xi s) (Machine.afterSample s)).2 = Machine.afterSample s := by
      rw [cast16_frame, h.mixValue_in_range hc xi]
      simp
    rw [generate_cons xi xs h.voices, hcast, ih h.afterSample hc]
    rfl

/-- With headroom a `PULL` leaves `OVF` as it was. -/
theorem State.Inv.execPull_ovf {s t : State} (h : s.Inv) (hc : HasHeadroom s.cfg) {nb : BitVec 32}
    (hx : execPull nb s = .next t) : t.ovf = s.ovf := by
  obtain ⟨-, ⟨-, rfl⟩ | ⟨-, -, rfl⟩ | ⟨-, -, -, rfl⟩ | ⟨-, h2, hn, hp⟩⟩ := execPull_next.1 hx
  · rfl
  · rfl
  · rfl
  · rw [h.pullBytes_fields h2 hn] at hp
    obtain rfl := Except.ok.inj hp
    exact h.generate_ovf hc (s.pullDraws nb.toNat)

/-- No command of port C changes `OVF`, in any state (R33, R157). -/
theorem exec_portC_ovf {i : Instr} {s t : State} (hport : i.port = .C) (hx : exec i s = .next t) :
    t.ovf = s.ovf := by
  cases i with
  | pull nb => cases hport
  | openDevice r b c f =>
    obtain ⟨-, ⟨-, rfl⟩ | ⟨-, -, rfl⟩ | ⟨-, -, rfl⟩⟩ := execOpenDevice_next.1 hx <;> rfl
  | closeDevice => obtain ⟨-, ⟨-, rfl⟩ | ⟨-, rfl⟩⟩ := execCloseDevice_next.1 hx <;> rfl
  | seth code => obtain ⟨-, -, ⟨-, rfl⟩ | ⟨-, rfl⟩⟩ := execSeth_next.1 hx <;> rfl
  | setc code => obtain ⟨-, -, ⟨-, rfl⟩ | ⟨-, rfl⟩⟩ := execSetc_next.1 hx <;> rfl
  | vinc => obtain ⟨-, -, rfl⟩ := execVinc_next.1 hx; rfl
  | vdec => obtain ⟨-, -, rfl⟩ := execVdec_next.1 hx; rfl
  | trige => obtain ⟨-, -, rfl⟩ := execTrige_next.1 hx; rfl
  | trigs => obtain ⟨-, -, rfl⟩ := execTrigs_next.1 hx; rfl
  | rdstat sel => obtain ⟨-, ⟨w, -, rfl⟩ | ⟨-, -, rfl⟩⟩ := execRdstat_next.1 hx <;> rfl

/-- With headroom no command changes `OVF`. -/
theorem State.Inv.exec_ovf {i : Instr} {s t : State} (h : s.Inv) (hc : HasHeadroom s.cfg)
    (hx : exec i s = .next t) : t.ovf = s.ovf := by
  cases i with
  | pull nb => exact h.execPull_ovf hc hx
  | _ => exact exec_portC_ovf rfl hx

/-! ### The obligations -/

/-- Settles O26: reset clears `OVF`, and with headroom every other step leaves it as it was. -/
theorem headroomRulesOutOverflow : Obligations.HeadroomRulesOutOverflow := by
  intro s t h hc hstep hovf
  obtain ⟨-, ⟨-, rfl⟩ | ⟨rest, -, rfl⟩ | ⟨p, w, rest, c, -, -, -, rfl⟩ |
    ⟨p, w, rest, i, -, -, hx⟩⟩ := step_next_cases hstep
  · exact hovf
  · cases hovf
  · exact hovf
  · exact ((h.withInputs rest).exec_ovf hc hx).symm.trans hovf

/-- Settles O8. -/
theorem stepRunsTheDecodedCommand : Obligations.StepRunsTheDecodedCommand := by
  intro s p w rest i hin hdec
  rw [step_of_command hin, runWord_of_ok hdec]

/-- Settles O12: the ten conditions are `Cfg.wf`, and every command and every input asks for it. -/
theorem illFormedConfigurationIsRefused : Obligations.IllFormedConfigurationIsRefused := by
  intro s hbad
  have h : ¬ s.cfg.wf = true := fun hwf => hbad ((Cfg.wf_iff s.cfg).1 hwf)
  exact ⟨fun i => exec_of_not_wf i h, step_of_not_wf h⟩

end Sys2Proof.Machine
end

section
/-! PROOFS. The state (`10_state.md`): the reset values (R39), the invariants of R37 kept by every step,
what a word on each port may write (R38, R264), the `STATUS` view read by `RDSTAT` (R34, R234), and
silence until the first trigger (R130).

The step is taken apart once, by `step_frame`: waiting, reset, a word on port A, a word on port C, each
word with a frame that holds for its faults too. The port statements and the stickiness of `OVF` are
read off it. The invariants go command by command, with sample generation kept apart from the tape. -/

namespace Sys2Proof.Machine

/-! ### Reset (R39) -/

/-- The reset state of a well-formed configuration is within the invariants (R37, R39). -/
theorem State.resetOf_inv {c : Cfg} (h : c.wf = true) : (State.resetOf c).Inv := by
  obtain ⟨-, -, htape, -, -, -, hcount, -⟩ := (Cfg.wf_iff c).1 h
  exact
    { cfgWf := h
      phCount := List.length_replicate
      phRange := fun p hp => by
        rw [List.eq_of_mem_replicate hp]
        norm_num
      vcountRange := ⟨le_rfl, hcount⟩
      cursorRange := lt_of_lt_of_le Nat.zero_lt_two htape
      cursorEven := rfl
      envRange := ⟨zero_le_one, le_rfl⟩
      envDone := fun _ => rfl
      heightLegal := rfl
      cdistLegal := rfl
      faultHeld := ⟨nofun, fun h0 => absurd rfl h0⟩
      faultClear := fun _ => ⟨rfl, rfl⟩
      tapeWf := Memory.wf_nil
      tapeBounds := nofun }

/-- The reset state has delivered nothing, and its tape is one length of silence (R206, R39). -/
theorem State.resetOf_streamInv (c : Cfg) : (State.resetOf c).StreamInv where
  cursorCounts := (Nat.zero_mod _).symm
  silentFirst := by
    have hring : (State.resetOf c).ringBytes c.tapeLen = List.replicate c.tapeLen 0x00#8 := by
      simp [State.ringBytes]
    have hstream : (State.resetOf c).stream = List.replicate c.tapeLen 0x00#8 := hring
    rw [hstream]
    exact List.take_of_length_le (by simp [State.resetOf])

/-- Reset keeps the invariants: it leaves the state of R39 but for what the environment supplies. -/
theorem State.Inv.takeReset {s : State} (h : s.Inv) : (Machine.takeReset s).Inv :=
  { State.resetOf_inv h.cfgWf with }

/-! ### The port of a decoded command (R81, R86) -/

/-- Each row of the opcode map assembles a command of the row's own port. -/
theorem assemble_port (w : Word) : ∀ r ∈ opcodeMap, (assemble r.name w).port = r.port := by
  simp [opcodeMap, assemble, Instr.port]

/-- A word decodes only to commands of the port it is presented on. -/
theorem decode_port {p : Port} {w : Word} {i : Instr} (h : decode p w = .ok i) : i.port = p := by
  obtain ⟨o, ho, -, rfl⟩ := decode_eq_ok.1 h
  exact assemble_port w _ (lookupOp_eq_some ho)

/-! ### What a word on each port may write (R38, R60, R264) -/

/-- The frame of port A: the synthesis registers, the tape and its cursor, the noise input, the output
stream and the fault registers may change; `OVF` is never cleared. -/
structure PortAFrame (s t : State) : Prop where
  rest : t = { s with
    ph := t.ph, envPh := t.envPh, envEn := t.envEn, ovf := t.ovf, tape := t.tape, cursor := t.cursor,
    draws := t.draws, drawPos := t.drawPos, audioOut := t.audioOut,
    opState := t.opState, fcause := t.fcause, finfo := t.finfo, fport := t.fport }
  sticky : s.ovf = true → t.ovf = true

/-- The frame of port C: the controls, the voice count, the envelope, the responses, `STATE` and the
fault registers may change. -/
structure PortCFrame (s t : State) : Prop where
  rest : t = { s with
    vcount := t.vcount, envPh := t.envPh, envEn := t.envEn, envSel := t.envSel, height := t.height,
    cdist := t.cdist, responses := t.responses,
    opState := t.opState, fcause := t.fcause, finfo := t.finfo, fport := t.fport }

/-- Fault entry is within the frame of port A (R256). -/
theorem takeFault_portAFrame (c : Cause) (p : Port) (w : Word) (s : State) :
    PortAFrame s (takeFault c p w s) := ⟨rfl, id⟩

/-- Fault entry is within the frame of port C (R256). -/
theorem takeFault_portCFrame (c : Cause) (p : Port) (w : Word) (s : State) :
    PortCFrame s (takeFault c p w s) := ⟨rfl⟩

/-- The only command of port A is `PULL` (R86). -/
theorem exec_portAFrame {i : Instr} {s t : State} (hport : i.port = .A) (hx : exec i s = .next t) :
    PortAFrame s t := by
  cases i with
  | pull nb =>
    obtain ⟨-, ⟨-, rfl⟩ | ⟨-, -, rfl⟩ | ⟨-, -, -, rfl⟩ | ⟨-, -, -, hp⟩⟩ := execPull_next.1 hx
    · exact takeFault_portAFrame ..
    · exact takeFault_portAFrame ..
    · exact takeFault_portAFrame ..
    · obtain ⟨hrest, -, -, hovf⟩ := pullBytes_frame hp
      exact ⟨by rw [hrest], hovf⟩
  | _ => cases hport

/-- No command of port C leaves its frame, its faults included. -/
theorem exec_portCFrame {i : Instr} {s t : State} (hport : i.port = .C) (hx : exec i s = .next t) :
    PortCFrame s t := by
  cases i with
  | pull nb => cases hport
  | openDevice r b c f =>
    obtain ⟨-, ⟨-, rfl⟩ | ⟨-, -, rfl⟩ | ⟨-, -, rfl⟩⟩ := execOpenDevice_next.1 hx <;> exact ⟨rfl⟩
  | closeDevice => obtain ⟨-, ⟨-, rfl⟩ | ⟨-, rfl⟩⟩ := execCloseDevice_next.1 hx <;> exact ⟨rfl⟩
  | seth code => obtain ⟨-, -, ⟨-, rfl⟩ | ⟨-, rfl⟩⟩ := execSeth_next.1 hx <;> exact ⟨rfl⟩
  | setc code => obtain ⟨-, -, ⟨-, rfl⟩ | ⟨-, rfl⟩⟩ := execSetc_next.1 hx <;> exact ⟨rfl⟩
  | vinc => obtain ⟨-, -, rfl⟩ := execVinc_next.1 hx; exact ⟨rfl⟩
  | vdec => obtain ⟨-, -, rfl⟩ := execVdec_next.1 hx; exact ⟨rfl⟩
  | trige => obtain ⟨-, -, rfl⟩ := execTrige_next.1 hx; exact ⟨rfl⟩
  | trigs => obtain ⟨-, -, rfl⟩ := execTrigs_next.1 hx; exact ⟨rfl⟩
  | rdstat sel => obtain ⟨-, ⟨w, -, rfl⟩ | ⟨-, -, rfl⟩⟩ := execRdstat_next.1 hx <;> exact ⟨rfl⟩

/-- A word presented on a port that answers a next state was executed as a command of that port, or
raised its decode fault (R90). -/
theorem runWord_next_cases {p : Port} {w : Word} {s t : State} (h : runWord p w s = .next t) :
    (∃ i, i.port = p ∧ exec i s = .next t) ∨ ∃ c, t = takeFault c p w s := by
  rcases hd : decode p w with c | i
  · rw [runWord_of_error hd] at h
    obtain ⟨-, -, hn⟩ := accepted_eq_next.1 h
    exact .inr ⟨c, next_eq_next.1 hn⟩
  · rw [runWord_of_ok hd] at h
    exact .inl ⟨i, decode_port hd, h⟩

theorem runWord_portAFrame {w : Word} {s t : State} (h : runWord .A w s = .next t) : PortAFrame s t := by
  obtain ⟨i, hport, hx⟩ | ⟨c, rfl⟩ := runWord_next_cases h
  · exact exec_portAFrame hport hx
  · exact takeFault_portAFrame ..

theorem runWord_portCFrame {w : Word} {s t : State} (h : runWord .C w s = .next t) : PortCFrame s t := by
  obtain ⟨i, hport, hx⟩ | ⟨c, rfl⟩ := runWord_next_cases h
  · exact exec_portCFrame hport hx
  · exact takeFault_portCFrame ..

/-- What a step may write, by the input it takes. -/
theorem step_frame {s t : State} (h : step s = .next t) :
    (s.inputs = [] ∧ t = s) ∨
    (∃ rest, s.inputs = .reset :: rest ∧ t = takeReset { s with inputs := rest }) ∨
    (∃ w rest, s.inputs = .command .A w :: rest ∧ PortAFrame { s with inputs := rest } t) ∨
    (∃ w rest, s.inputs = .command .C w :: rest ∧ PortCFrame { s with inputs := rest } t) := by
  rcases hi : s.inputs with _ | ⟨_ | ⟨_ | _, w⟩, rest⟩
  · rw [step_of_no_input hi] at h
    exact .inl ⟨rfl, next_eq_next.1 (configured_eq_next.1 h).2⟩
  · rw [step_of_reset hi] at h
    exact .inr (.inl ⟨rest, rfl, next_eq_next.1 (configured_eq_next.1 h).2⟩)
  · rw [step_of_command hi] at h
    exact .inr (.inr (.inl ⟨w, rest, rfl, runWord_portAFrame h⟩))
  · rw [step_of_command hi] at h
    exact .inr (.inr (.inr ⟨w, rest, rfl, runWord_portCFrame h⟩))

/-! ### Every command keeps the invariants (R37) -/

/-- The invariants hold after any change of tape, cursor and channels that keeps the tape canonical and
within its bounds, and the cursor even and on the tape. -/
theorem State.Inv.side {s : State} (h : s.Inv) {m : List Host.Cell} {c : Nat} (hm : Memory.wf m)
    (hb : ∀ x ∈ m, x.1 < s.cfg.tapeLen) (hc : c < s.cfg.tapeLen) (he : c % 2 = 0) (d : List Draw)
    (k : Nat) (o : List Byte) : (s.side m c d k o).Inv :=
  { h with
    cursorRange := hc
    cursorEven := he
    tapeWf := hm
    tapeBounds := hb }

/-- Between `IDLE` and `RUN` the fault registers have nothing to follow (R30, R37). -/
theorem State.Inv.withOpState {s : State} (h : s.Inv) (hs : s.opState ≠ .fault) {o : OpState}
    (ho : o ≠ .fault) : ({ s with opState := o } : State).Inv :=
  { h with faultHeld := ⟨fun hf => absurd hf ho, fun hc => absurd (h.faultHeld.2 hc) hs⟩ }

/-- A voice count within the bank keeps the invariants (R22, R37). -/
theorem State.Inv.withVcount {s : State} (h : s.Inv) {k : Nat} (hk : 1 ≤ k ∧ k ≤ s.cfg.maxCount) :
    ({ s with vcount := k } : State).Inv :=
  { h with vcountRange := hk }

/-- Re-arming sets the envelope phase to 0 with the envelope enabled (R37, R134, R135). -/
theorem State.Inv.rearm {s : State} (h : s.Inv) (sel : Bool) : (Machine.rearm sel s).Inv :=
  { h with
    envRange := ⟨le_rfl, zero_le_one⟩
    envDone := nofun }

theorem generate_cfg (xs : List Draw) {s : State} (h : s.vcount ≤ s.ph.length) :
    (generate xs s).2.cfg = s.cfg := by
  rw [(generate_frame xs h).1]

/-- A legal `PULL` keeps the invariants: generation does, the tape is rewritten within its bounds, and
the cursor wraps at an even length (R37, R203, R204). -/
theorem State.Inv.pullBytes {s t : State} (h : s.Inv) {n : Nat} (h2 : n % 2 = 0)
    (hn : n ≤ s.cfg.tapeLen) (hp : Machine.pullBytes n s = .ok t) : t.Inv := by
  rw [pullBytes_ok h.voices h.tapeLen_even h.cursorEven h.cursorRange h2 hn] at hp
  obtain rfl := Except.ok.inj hp
  have hcfg := generate_cfg (s.pullDraws n) h.voices
  have hlen := h.pullGenerated_bytes h2
  have heven : (s.cursor + n) % s.cfg.tapeLen % 2 = 0 := by
    rw [Nat.mod_mod_of_dvd _ (Nat.dvd_of_mod_eq_zero h.tapeLen_even), Nat.add_mod, h.cursorEven, h2]
  refine (h.generate (s.pullDraws n)).side (Memory.ringWrite_wf h.tapeWf ..) ?_ ?_ heven _ _ _
  · intro x hx
    rw [hcfg]
    exact (Memory.mem_ringWrite h.cursorRange (hlen.trans_le hn) hx).elim (h.tapeBounds x) id
  · rw [generate_cfg _ h.voices]
    exact Nat.mod_lt _ (Nat.zero_lt_of_lt h.cursorRange)

/-- Every command keeps the invariants, its faults included (R37). -/
theorem State.Inv.exec {i : Instr} {s t : State} (h : s.Inv) (hx : Machine.exec i s = .next t) :
    t.Inv := by
  cases i with
  | pull nb =>
    obtain ⟨-, ⟨-, rfl⟩ | ⟨-, -, rfl⟩ | ⟨-, -, -, rfl⟩ | ⟨-, h2, hn, hp⟩⟩ := execPull_next.1 hx
    · exact h.takeFault ..
    · exact h.takeFault ..
    · exact h.takeFault ..
    · exact h.pullBytes h2 hn hp
  | openDevice r b c f =>
    obtain ⟨-, ⟨-, rfl⟩ | ⟨hs, -, rfl⟩ | ⟨-, -, rfl⟩⟩ := execOpenDevice_next.1 hx
    · exact h.takeFault ..
    · exact h.withOpState (by simp [hs]) (by decide)
    · exact h.takeFault ..
  | closeDevice =>
    obtain ⟨-, ⟨-, rfl⟩ | ⟨hs, rfl⟩⟩ := execCloseDevice_next.1 hx
    · exact h.takeFault ..
    · exact h.withOpState (by simp [hs]) (by decide)
  | seth code =>
    obtain ⟨-, -, ⟨hc, rfl⟩ | ⟨-, rfl⟩⟩ := execSeth_next.1 hx
    · exact { h with heightLegal := hc }
    · exact h.takeFault ..
  | setc code =>
    obtain ⟨-, -, ⟨hc, rfl⟩ | ⟨-, rfl⟩⟩ := execSetc_next.1 hx
    · exact { h with cdistLegal := hc }
    · exact h.takeFault ..
  | vinc =>
    obtain ⟨-, -, rfl⟩ := execVinc_next.1 hx
    have hrange := h.vcountRange
    exact h.withVcount (by split_ifs <;> omega)
  | vdec =>
    obtain ⟨-, -, rfl⟩ := execVdec_next.1 hx
    have hrange := h.vcountRange
    exact h.withVcount (by split_ifs <;> omega)
  | trige =>
    obtain ⟨-, -, rfl⟩ := execTrige_next.1 hx
    exact h.rearm false
  | trigs =>
    obtain ⟨-, -, rfl⟩ := execTrigs_next.1 hx
    exact h.rearm true
  | rdstat sel =>
    obtain ⟨-, ⟨w, -, rfl⟩ | ⟨-, -, rfl⟩⟩ := execRdstat_next.1 hx
    · exact { h with }
    · exact h.takeFault ..

/-! ### The values `RDSTAT` selects (R34, R234) -/

/-- A concatenation is its high part scaled past its low part. -/
theorem toNat_append_eq {m n : Nat} (x : BitVec m) (y : BitVec n) :
    (x ++ y).toNat = 2 ^ n * x.toNat + y.toNat := by
  rw [BitVec.toNat_append, ← Nat.shiftLeft_add_eq_or_of_lt y.isLt, Nat.shiftLeft_eq, Nat.mul_comm]

/-- The `STATUS` view as arithmetic (R34). -/
theorem State.statusWord_toNat (s : State) :
    s.statusWord.toNat = s.opState.code.toNat + 4 * s.envEn.toNat + 8 * s.envSel.toNat +
      16 * s.ovf.toNat + 32 * s.fcause.toNat + 512 * s.fport.toNat := by
  simp only [State.statusWord, toNat_append_eq, BitVec.toNat_ofBool, BitVec.toNat_ofNat]
  omega

theorem zext64_toNat {v : Nat} (h : v < 2 ^ 64) : (zext64 v).toNat = v := by
  rw [zext64, if_pos h, BitVec.toNat_ofNat, Nat.mod_eq_of_lt h]

/-- The values of R234 in selector order, as naturals. -/
def State.selectable (s : State) : List Nat :=
  [s.statusWord.toNat, s.cursor, s.vcount, s.height.toNat, s.cdist.toNat, s.finfo.toNat,
    s.cfg.tapeLen, s.cfg.maxCount]

/-- A legal selector returns the value it selects, where that has a 64-bit word (R234). -/
theorem statusValue_of_legal {sel : BitVec 4} (s : State) (h : sel.toNat ≤ 7) :
    ∃ w, statusValue sel s = some w ∧
      (s.selectable.getD sel.toNat 0 < 2 ^ 64 → w.toNat = s.selectable.getD sel.toNat 0) := by
  unfold statusValue
  generalize sel.toNat = k at h
  match k, h with
  | 0, _ => exact ⟨_, rfl, fun _ => rfl⟩
  | 1, _ => exact ⟨_, rfl, zext64_toNat⟩
  | 2, _ => exact ⟨_, rfl, zext64_toNat⟩
  | 3, _ => exact ⟨_, rfl, fun _ => BitVec.toNat_setWidth_of_le (by decide)⟩
  | 4, _ => exact ⟨_, rfl, fun _ => BitVec.toNat_setWidth_of_le (by decide)⟩
  | 5, _ => exact ⟨_, rfl, fun _ => rfl⟩
  | 6, _ => exact ⟨_, rfl, zext64_toNat⟩
  | 7, _ => exact ⟨_, rfl, zext64_toNat⟩

theorem statusValue_of_illegal {sel : BitVec 4} (s : State) (h : 7 < sel.toNat) :
    statusValue sel s = none := by
  unfold statusValue
  generalize sel.toNat = k at h
  match k, h with
  | _ + 8, _ => rfl

theorem execRdstat_of_some {sel : BitVec 4} {s : State} {w : Word} (hwf : s.cfg.wf = true)
    (h : statusValue sel s = some w) : execRdstat sel s = .next (respond w s) :=
  execRdstat_next.2 ⟨hwf, .inl ⟨w, h, rfl⟩⟩

theorem execRdstat_of_none {sel : BitVec 4} {s : State} (h : statusValue sel s = none) :
    execRdstat sel s = accepted s (raise .field (.rdstat sel) s) := by
  simp only [execRdstat, h]

/-! ### Silence (R130, R151) -/

/-- The envelope has run out and stays out, and there is no noise: nothing is heard. -/
structure Silent (s : State) : Prop where
  voices : s.vcount ≤ s.ph.length
  envEn : s.envEn = false
  envPh : s.envPh = 1
  cdist : s.cdist = 0

/-- The release multiplier is 0 and so is the noise term (R130, R151). -/
theorem Silent.mixValue {s : State} (h : Silent s) (xi : Draw) : mixValue xi s = 0 := by
  simp [Machine.mixValue, mixTotal, envrel, h.envPh, noiseTerm_of_silent h.cdist]

theorem envadv_of_disabled {s : State} (h : s.envEn = false) : envadv s = s := by simp [envadv, h]

theorem Silent.afterSample {s : State} (h : Silent s) : Silent (afterSample s) where
  voices := by simpa [Machine.afterSample] using h.voices
  envEn := by simp only [Machine.afterSample, envadv_of_disabled h.envEn, h.envEn]
  envPh := by simp only [Machine.afterSample, envadv_of_disabled h.envEn, h.envPh]
  cdist := h.cdist

theorem cast16_zero (s : State) : cast16 0 s = (0, s) := by
  simp [cast16, trunc, inSampleRange]

/-- A silent state generates zero samples whatever the draws, stays silent and never overflows. -/
theorem Silent.generate (xs : List Draw) {s : State} (h : Silent s) :
    (generate xs s).1 = List.replicate xs.length 0 ∧ Silent (generate xs s).2 ∧
      (generate xs s).2.ovf = s.ovf := by
  induction xs generalizing s with
  | nil => exact ⟨rfl, h, rfl⟩
  | cons xi xs ih =>
    obtain ⟨hsamples, hsilent, hovf⟩ := ih h.afterSample
    rw [generate_cons xi xs h.voices, h.mixValue, cast16_zero]
    exact ⟨congrArg (List.cons 0) hsamples, hsilent, hovf⟩

theorem pcmenc_zero : pcmenc 0 = (0x00#8, 0x00#8) := by decide

/-- The bytes of zero samples are zero (R180). -/
theorem mem_pcmBytes_replicate_zero {k : Nat} {b : Byte} (h : b ∈ pcmBytes (List.replicate k 0)) :
    b = 0x00#8 := by
  obtain ⟨v, hv, hb⟩ := List.mem_flatMap.1 h
  obtain rfl := List.eq_of_mem_replicate hv
  simpa [pcmenc_zero] using hb

/-! ### The obligations -/

/-- Settles O14, by the input the step takes. -/
theorem everyStepKeepsTheInvariants : Obligations.EveryStepKeepsTheInvariants := by
  intro s t h hstep
  obtain ⟨-, ⟨-, rfl⟩ | ⟨rest, -, rfl⟩ | ⟨p, w, rest, c, -, -, -, rfl⟩ |
    ⟨p, w, rest, i, -, -, hx⟩⟩ := step_next_cases hstep
  · exact h
  · exact (h.withInputs rest).takeReset
  · exact (h.withInputs rest).takeFault c p w
  · exact (h.withInputs rest).exec hx

/-- Settles O27, from the frames of the two ports. -/
theorem overflowFlagIsSticky : Obligations.OverflowFlagIsSticky := by
  intro s t hstep hreset
  obtain ⟨-, rfl⟩ | ⟨rest, hi, -⟩ | ⟨w, rest, hi, hA⟩ | ⟨w, rest, -, hC⟩ := step_frame hstep
  · exact ⟨id, fun _ => rfl⟩
  · exact absurd hi (hreset rest)
  · exact ⟨hA.sticky, fun hnoA => absurd hi (hnoA w rest)⟩
  · have hovf : t.ovf = s.ovf := by rw [hC.rest]
    exact ⟨hovf.trans, fun _ => hovf⟩

/-- Settles O34. -/
theorem rdstatAnswersTheSelectedValue : Obligations.RdstatAnswersTheSelectedValue := by
  intro s sel hwf status selected
  have hstatus : status = s.statusWord.toNat := by
    rw [State.statusWord_toNat]
    simp only [status]
    cases s.opState <;> rfl
  have hselected : selected = s.selectable.getD sel.toNat 0 := by
    simp only [selected, hstatus]
    rfl
  refine ⟨fun hle => ?_, fun hgt hs => ?_, fun hgt hs => ?_⟩
  · obtain ⟨w, hw, hval⟩ := statusValue_of_legal s hle
    rw [hselected]
    exact ⟨w, execRdstat_of_some hwf hw, hval⟩
  · exact (execRdstat_of_none (statusValue_of_illegal s hgt)).trans (accepted_ok hwf hs)
  · exact (execRdstat_of_none (statusValue_of_illegal s hgt)).trans (accepted_in_fault hwf hs)

/-- Settles O41. -/
theorem portCLeavesTapeAndCursor : Obligations.PortCLeavesTapeAndCursor := by
  intro s t w rest hi hstep
  rw [step_of_command hi] at hstep
  rw [(runWord_portCFrame hstep).rest]
  exact ⟨rfl, rfl, rfl, rfl, rfl, rfl, rfl⟩

/-- Settles O42. -/
theorem portALeavesTheControls : Obligations.PortALeavesTheControls := by
  intro s t w rest hi hstep
  rw [step_of_command hi] at hstep
  rw [(runWord_portAFrame hstep).rest]
  exact ⟨rfl, rfl, rfl, rfl, rfl⟩

/-- Settles O43: the frames of both ports keep the configuration and the inputs left to take. -/
theorem configurationAndInputOrderAreKept : Obligations.ConfigurationAndInputOrderAreKept := by
  intro s t hstep
  obtain ⟨hi, rfl⟩ | ⟨rest, hi, rfl⟩ | ⟨w, rest, hi, hA⟩ | ⟨w, rest, hi, hC⟩ := step_frame hstep
  · exact ⟨rfl, by rw [hi, List.tail_nil]⟩
  · exact ⟨rfl, by rw [hi]; rfl⟩
  · rw [hi, hA.rest]
    exact ⟨rfl, rfl⟩
  · rw [hi, hC.rest]
    exact ⟨rfl, rfl⟩

/-- Settles O55: an invariant state with the envelope disabled and no noise is silent, and so every
byte `REFILL` writes is 0. -/
theorem silentUntilTriggered : Obligations.SilentUntilTriggered := by
  intro s nb h hrun h2 hn hen hcd
  have hsilent : Silent s := ⟨h.voices, hen, h.envDone hen, hcd⟩
  obtain ⟨hsamples, hstill, hovf⟩ := hsilent.generate (s.pullDraws nb.toNat)
  rw [State.pullDraws, noiseRun_length] at hsamples
  refine ⟨_, (execPull_legal h.cfgWf hrun h2 hn).trans
    (finish_eq_next.2 (h.pullBytes_fields h2 hn)), fun j hj => ?_, hsamples, hovf, hstill.envEn,
    hstill.envPh⟩
  have hlen := h.pullGenerated_bytes h2
  refine (Memory.read_ringWrite_at h.tapeWf h.cursorRange (hlen.trans_le hn)
    (hj.trans_eq hlen.symm)).trans (mem_pcmBytes_replicate_zero (k := nb.toNat / 2) ?_)
  rw [← hsamples]
  exact List.getElem_mem _

/-- Settles O11. -/
theorem resetLeavesTheListedValues : Obligations.ResetLeavesTheListedValues := by
  intro c
  refine ⟨List.length_replicate, fun i hi => ?_, rfl, rfl, State.resetOf_tapeByte c, rfl, rfl, rfl, rfl,
    rfl, rfl, rfl, rfl, rfl, rfl⟩
  exact List.getElem?_replicate_of_lt hi

/-- Settles O13. -/
theorem resetMeetsTheInvariants : Obligations.ResetMeetsTheInvariants :=
  fun c h => ⟨State.resetOf_inv h, State.resetOf_streamInv c⟩

end Sys2Proof.Machine
end

section
/-! PROOFS. The tape and its access primitives (`20_memory.md`): what `MemRead` and `MemWrite` answer in
bounds and past the tape end (R53, R54), from the laws of the canonical cell list. -/

namespace Sys2Proof.Machine

/-! ### Tape access past the end (R53, R54, log entry 12) -/

theorem memRead_out_of_bounds {s : State} {a n : Nat} (h : s.cfg.tapeLen < a + n) :
    memRead s a n = .error .tapeRange := if_neg h.not_ge

theorem memWrite_out_of_bounds {s : State} {a : Nat} {bs : List Byte}
    (h : s.cfg.tapeLen < a + bs.length) : memWrite s a bs = .error .tapeRange := if_neg h.not_ge

/-! ### The obligations -/

/-- Settles O45: in bounds by the laws of `MemRead`, `MemWrite` and `Memory.writeRun`, past the end by
the stop. -/
theorem tapeAccessPrimitives : Obligations.TapeAccessPrimitives := by
  intro s a n bs hwf
  refine ⟨fun hread => ⟨_, memRead_ok hread, by simp, fun j hj => by simp [hj]⟩,
    memRead_out_of_bounds, fun hwrite => ⟨_, memWrite_ok hwrite, rfl, ?canonical, ?bytes⟩,
    memWrite_out_of_bounds⟩
  case canonical => exact Memory.writeRun_wf hwf a bs
  case bytes => exact Memory.read_writeRun hwf a bs

end Sys2Proof.Machine
end

section
/-! PROOFS. The encoding (`30_encoding.md`): decoding and encoding are inverse to each other on the
well-formed commands (R83 to R86, R90), the two decode faults (R87, R88), the operands as numbers (R84)
and the byte transport of a word (R91).

The opcode map is used through `lookupOp_eq_some_iff` and `lookupOp_eq_none_iff`, the field checks
through `fieldsLegal_encode`, `opField_append_payload_of_legal` and `fieldsLegal_iff`, and decoding as a
whole through `decode_eq_ok_iff_encode`. -/

namespace Sys2Proof

/-! ### The opcode map by opcode (R86, R87) -/

/-- The port of an opcode in the map of R86. -/
def Opcode.port : Opcode → Port
  | .pull => .A
  | _ => .C

/-- The opcode byte of an opcode in the map of R86. -/
def Opcode.byte : Opcode → BitVec 8
  | .pull => 0x10#8
  | .openDevice => 0x20#8
  | .closeDevice => 0x21#8
  | .seth => 0x30#8
  | .setc => 0x31#8
  | .vinc => 0x40#8
  | .vdec => 0x41#8
  | .trige => 0x50#8
  | .trigs => 0x51#8
  | .rdstat => 0x60#8

/-- The map has one row for each opcode, at its port and byte. -/
theorem lookupOp_eq_some_iff {p : Port} {op : BitVec 8} {o : Opcode} :
    lookupOp p op = some o ↔ o.port = p ∧ o.byte = op := by
  constructor
  · have hrows : ∀ r ∈ opcodeMap, r.name.port = r.port ∧ r.name.byte = r.op := by decide
    exact fun h => hrows _ (lookupOp_eq_some h)
  · rintro ⟨rfl, rfl⟩
    cases o <;> rfl

theorem lookupOp_eq_none_iff {p : Port} {op : BitVec 8} :
    lookupOp p op = none ↔ ∀ r ∈ opcodeMap, r.port = p → r.op ≠ op := by
  simp [lookupOp]

/-! ### Decoding an encoded command (R83 to R86, R90) -/

/-- The opcode of a command (R86). -/
def Instr.opcode : Instr → Opcode
  | .pull _ => .pull
  | .openDevice _ _ _ _ => .openDevice
  | .closeDevice => .closeDevice
  | .seth _ => .seth
  | .setc _ => .setc
  | .vinc => .vinc
  | .vdec => .vdec
  | .trige => .trige
  | .trigs => .trigs
  | .rdstat _ => .rdstat

theorem Instr.opcode_port (i : Instr) : i.opcode.port = i.port := by cases i <;> rfl

theorem opField_encode (i : Instr) : opField (encode i) = i.opcode.byte := by
  cases i with
  | pull n => exact opField_encode_pull n
  | openDevice r b c f => exact opField_encode_open r b c f
  | seth code => exact opField_append 0x30#8 (0#39 ++ code)
  | setc code => exact opField_append 0x31#8 (0#39 ++ code)
  | rdstat sel => exact opField_append 0x60#8 (0#52 ++ sel)
  | _ => exact opField_append _ 0#56

theorem lookupOp_encode (i : Instr) : lookupOp i.port (opField (encode i)) = some i.opcode :=
  lookupOp_eq_some_iff.2 ⟨i.opcode_port, (opField_encode i).symm⟩

/-- The field checks on an encoded command are the well-formedness of its operands (R88). -/
theorem fieldsLegal_encode (i : Instr) : fieldsLegal i.opcode.format (encode i) = i.wf := by
  cases i with
  | pull n => exact fieldsLegal_N_append 0x10#8 n
  | openDevice r b c f => rfl
  | seth code => exact fieldsLegal_V_append 0x30#8 code
  | setc code => exact fieldsLegal_V_append 0x31#8 code
  | rdstat sel => exact fieldsLegal_S_append 0x60#8 sel
  | _ => exact fieldsLegal_Z_append _

/-- Every operand is read back from the word it was encoded in (R84). -/
theorem assemble_encode (i : Instr) : assemble i.opcode (encode i) = i := by
  cases i with
  | pull n => exact congrArg Instr.pull (nbytesField_encode n)
  | openDevice r b c f =>
    simp only [assemble, Instr.opcode, rateField_encode, bufField_encode, channelsField_encode,
      fmtField_encode]
  | seth code => exact congrArg Instr.seth (codeField_append 0x30#8 code)
  | setc code => exact congrArg Instr.setc (codeField_append 0x31#8 code)
  | rdstat sel => exact congrArg Instr.rdstat (selField_append 0x60#8 sel)
  | _ => rfl

theorem decode_encode {i : Instr} (h : i.wf = true) : decode i.port (encode i) = .ok i :=
  decode_eq_ok.2 ⟨i.opcode, lookupOp_encode i, (fieldsLegal_encode i).trans h, (assemble_encode i).symm⟩

/-- Settles O1, by the lookup, the field checks and the operands of an encoded word. -/
theorem decodeOfEncodeIsTheCommand : Obligations.DecodeOfEncodeIsTheCommand := fun _ => decode_encode

/-! ### Encoding a decoded word (R83, R88, R90) -/

/-- The payload of a word of each format, rebuilt from its fields with every reserved bit 0 (R83). -/
def Format.payload : Format → Word → BitVec 56
  | .Z, _ => 0#56
  | .N, w => 0#24 ++ nbytesField w
  | .V, w => 0#39 ++ codeField w
  | .O, w => fmtField w ++ (channelsField w ++ (bufField w ++ rateField w))
  | .S, w => 0#52 ++ selField w

theorem encode_assemble (o : Opcode) (w : Word) :
    encode (assemble o w) = o.byte ++ o.format.payload w := by cases o <;> rfl

/-- The field checks leave no bit of a word outside its opcode byte and its fields (R83, R88). -/
theorem opField_append_payload_of_legal {f : Format} {w : Word} (h : fieldsLegal f w = true) :
    opField w ++ f.payload w = w := by
  have join {lo hi : Nat} (hlen : hi + lo = 56) (hz : w.extractLsb' lo hi = 0#hi) :
      (opField w ++ (0#hi ++ w.extractLsb' 0 lo)).cast (by omega) = w := hz ▸ word_join_two w lo hi hlen
  cases f with
  | Z =>
    have hz : w.extractLsb' 0 56 = 0#56 := beq_iff_eq.1 h
    exact (congrArg (opField w ++ ·) hz.symm).trans (opField_append_payload w)
  | N => exact join (lo := 32) (hi := 24) rfl (beq_iff_eq.1 h)
  | V =>
    obtain ⟨hz, -⟩ := Bool.and_eq_true_iff.1 h
    exact join (lo := 17) (hi := 39) rfl (beq_iff_eq.1 hz)
  | O => exact word_join_four w
  | S =>
    obtain ⟨hz, -⟩ := Bool.and_eq_true_iff.1 h
    exact join (lo := 4) (hi := 52) rfl (beq_iff_eq.1 hz)

theorem assemble_wf {o : Opcode} {w : Word} (h : fieldsLegal o.format w = true) :
    (assemble o w).wf = true := by
  cases o with
  | seth => exact (Bool.and_eq_true_iff.1 h).2
  | setc => exact (Bool.and_eq_true_iff.1 h).2
  | rdstat => exact (Bool.and_eq_true_iff.1 h).2
  | _ => rfl

theorem encode_of_decode {p : Port} {w : Word} {i : Instr} (h : decode p w = .ok i) : encode i = w := by
  obtain ⟨o, ho, hlegal, rfl⟩ := decode_eq_ok.1 h
  obtain ⟨-, hbyte⟩ := lookupOp_eq_some_iff.1 ho
  rw [encode_assemble, hbyte, opField_append_payload_of_legal hlegal]

theorem wf_of_decode {p : Port} {w : Word} {i : Instr} (h : decode p w = .ok i) : i.wf = true := by
  obtain ⟨o, -, hlegal, rfl⟩ := decode_eq_ok.1 h
  exact assemble_wf hlegal

/-- The words that decode are the encodings of the well-formed commands, each on its command's port. -/
theorem decode_eq_ok_iff_encode {p : Port} {w : Word} {i : Instr} :
    decode p w = .ok i ↔ encode i = w ∧ i.port = p ∧ i.wf = true := by
  constructor
  · exact fun h => ⟨encode_of_decode h, Machine.decode_port h, wf_of_decode h⟩
  · rintro ⟨rfl, rfl, hwf⟩
    exact decode_encode hwf

/-- Settles O2: one direction of the characterisation of the words that decode. -/
theorem encodeOfDecodeIsTheWord : Obligations.EncodeOfDecodeIsTheWord :=
  fun _ _ _ => decode_eq_ok_iff_encode.1

/-- Settles O3: each listed word is the encoding of its command. -/
theorem listedWordsDecode : Obligations.ListedWordsDecode := by
  unfold Obligations.ListedWordsDecode
  simp only [decode_eq_ok_iff_encode]
  decide

/-! ### Fields as numbers (R84, R88) -/

/-- A field is the unsigned integer its bits form (R84). -/
theorem extract_toNat (w : Word) (lo len : Nat) :
    (w.extractLsb' lo len).toNat = w.toNat / 2 ^ lo % 2 ^ len := by
  rw [BitVec.extractLsb'_toNat, Nat.shiftRight_eq_div_pow]

/-- A field at the low end of the word. -/
theorem extract_zero_toNat (w : Word) (len : Nat) : (w.extractLsb' 0 len).toNat = w.toNat % 2 ^ len := by
  rw [extract_toNat, pow_zero, Nat.div_one]

theorem extract_eq_zero_iff (w : Word) (lo len : Nat) :
    w.extractLsb' lo len = 0#len ↔ w.toNat / 2 ^ lo % 2 ^ len = 0 := by
  rw [← extract_toNat, ← BitVec.toNat_inj, BitVec.toNat_zero]

theorem opField_toNat (w : Word) : (opField w).toNat = w.toNat / 2 ^ 56 := by
  rw [opField, extract_toNat, Nat.mod_eq_of_lt (by omega)]

/-- The field checks of R90 as arithmetic on the word. -/
theorem fieldsLegal_iff (f : Format) (w : Word) :
    fieldsLegal f w = true ↔
      match f with
      | .Z => w.toNat % 2 ^ 56 = 0
      | .N => w.toNat / 2 ^ 32 % 2 ^ 24 = 0
      | .V => w.toNat / 2 ^ 17 % 2 ^ 39 = 0 ∧ w.toNat % 2 ^ 17 ≤ 65536
      | .O => True
      | .S => w.toNat / 2 ^ 4 % 2 ^ 52 = 0 ∧ w.toNat % 2 ^ 4 ≤ 7 := by
  cases f with
  | Z => simp only [fieldsLegal, beq_iff_eq, extract_eq_zero_iff, pow_zero, Nat.div_one]
  | N => simp only [fieldsLegal, beq_iff_eq, extract_eq_zero_iff]
  | V =>
    simp only [fieldsLegal, Bool.and_eq_true, beq_iff_eq, extract_eq_zero_iff, codeLegal, codeField,
      extract_zero_toNat, decide_eq_true_eq]
  | O => simp only [fieldsLegal]
  | S =>
    simp only [fieldsLegal, Bool.and_eq_true, beq_iff_eq, extract_eq_zero_iff, selLegal, selField,
      extract_zero_toNat, decide_eq_true_eq]

/-- Settles O4: the word is the encoding of its command, and the encoded operands are read back from
their fields. -/
theorem operandsAreTheBitsOfTheirFields : Obligations.OperandsAreTheBitsOfTheirFields := by
  intro p w
  refine ⟨fun n h => ?pull, fun r b c f h => ?openDevice, fun code h => ?seth, fun code h => ?setc,
    fun sel h => ?rdstat⟩
  case pull =>
    have hn : nbytesField w = n := encode_of_decode h ▸ nbytesField_encode n
    exact hn ▸ extract_zero_toNat w 32
  case openDevice =>
    have hr : rateField w = r := encode_of_decode h ▸ rateField_encode r b c f
    have hb : bufField w = b := encode_of_decode h ▸ bufField_encode r b c f
    have hc : channelsField w = c := encode_of_decode h ▸ channelsField_encode r b c f
    have hf : fmtField w = f := encode_of_decode h ▸ fmtField_encode r b c f
    exact ⟨hr ▸ extract_zero_toNat w 32, hb ▸ extract_toNat w 32 16, hc ▸ extract_toNat w 48 4,
      hf ▸ extract_toNat w 52 4⟩
  case seth =>
    have hcode : codeField w = code := encode_of_decode h ▸ codeField_append 0x30#8 code
    exact hcode ▸ extract_zero_toNat w 17
  case setc =>
    have hcode : codeField w = code := encode_of_decode h ▸ codeField_append 0x31#8 code
    exact hcode ▸ extract_zero_toNat w 17
  case rdstat =>
    have hsel : selField w = sel := encode_of_decode h ▸ selField_append 0x60#8 sel
    exact hsel ▸ extract_zero_toNat w 4

/-! ### The byte transport (R91) -/

theorem bytesOfWord_eq_map (w : Word) :
    bytesOfWord w = (List.range 8).map fun k => w.extractLsb' (8 * k) 8 := rfl

/-- Each byte extends the bytes above it down to its own place. -/
theorem wordOfBytes_bytesOfWord (w : Word) : wordOfBytes (bytesOfWord w) = some w := by
  refine congrArg some ?_
  rw [extract_join w 48 8 8, extract_join w 40 8 16, extract_join w 32 8 24, extract_join w 24 8 32,
    extract_join w 16 8 40, extract_join w 8 8 48, extract_join w 0 8 56]
  exact BitVec.extractLsb'_eq_self

theorem decodeBytes_bytesOfWord (p : Port) (w : Word) :
    decodeBytes p (bytesOfWord w) = (decode p w).mapError .raises := by
  simp only [decodeBytes, wordOfBytes_bytesOfWord]
  cases decode p w <;> rfl

/-- Settles O7, with the `k`-th byte as the 8-bit field at bit `8 * k`. -/
theorem byteTransportIsLittleEndian : Obligations.ByteTransportIsLittleEndian := by
  intro w
  refine ⟨rfl, fun k hk => ?_, rfl, wordOfBytes_bytesOfWord w, fun p i => ?_⟩
  · have hbyte : (bytesOfWord w).getD k 0 = w.extractLsb' (8 * k) 8 := by
      simp [bytesOfWord_eq_map, hk]
    rw [hbyte, extract_toNat, pow_mul]
    rfl
  · rw [decodeBytes_bytesOfWord]
    cases decode p w <;> simp [Except.mapError]

end Sys2Proof

namespace Sys2Proof.Machine

/-! ### The decode faults (R87, R88, R256) -/

/-- Outside `FAULT` a rejected word is taken as a fault, with its cause, itself and its port recorded. -/
theorem runWord_of_error_ok {p : Port} {w : Word} {c : Cause} {s : State} (hd : decode p w = .error c)
    (hwf : s.cfg.wf = true) (hs : s.opState ≠ .fault) :
    runWord p w s = .next (takeFault c p w s) :=
  (runWord_of_error hd).trans (accepted_ok hwf hs)

theorem decode_eq_opcode_iff {p : Port} {w : Word} :
    decode p w = .error .opcode ↔ lookupOp p (opField w) = none := by
  simp [decode_eq_error]

theorem decode_eq_field_iff {p : Port} {w : Word} {o : Opcode} (ho : lookupOp p (opField w) = some o) :
    decode p w = .error .field ↔ ¬ fieldsLegal o.format w = true := by
  simp [decode_eq_error, ho]

/-- Settles O5: the opcode bytes of the map, port by port. -/
theorem illegalOpcodesRaiseOpcodeFault : Obligations.IllegalOpcodesRaiseOpcodeFault := by
  intro p w legal
  have hfault : decode p w = .error .opcode ↔ ¬ legal := by
    rw [decode_eq_opcode_iff, lookupOp_eq_none_iff]
    simp only [legal, ← opField_toNat]
    cases p with
    | A => simp [opcodeMap, ← BitVec.toNat_inj, eq_comm]
    | C => simp [opcodeMap, ← BitVec.toNat_inj, eq_comm]
  exact ⟨hfault, fun s hwf hs hbad => runWord_of_error_ok (hfault.2 hbad) hwf hs⟩

/-- Settles O6: the field checks of the opcode's format, as arithmetic. -/
theorem reservedBitsAndRangesRaiseFieldFault : Obligations.ReservedBitsAndRangesRaiseFieldFault := by
  intro p w o ho bad
  have hbad : bad ↔ ¬ fieldsLegal o.format w = true := by
    rw [fieldsLegal_iff]
    simp only [bad]
    cases o with
    | openDevice => simp [Opcode.format]
    | seth => simp only [Opcode.format]; omega
    | setc => simp only [Opcode.format]; omega
    | rdstat => simp only [Opcode.format]; omega
    | _ => exact Iff.rfl
  have hfault : decode p w = .error .field ↔ bad := (decode_eq_field_iff ho).trans hbad.symm
  refine ⟨hfault, fun hgood => ?_, fun s hwf hs h => runWord_of_error_ok (hfault.2 h) hwf hs⟩
  exact ⟨_, decode_eq_ok.2 ⟨o, ho, not_not.1 (mt hbad.2 hgood), rfl⟩⟩

/-! ### The control codes (R85, R158, R159) -/

/-- Settles O29, from what `SETH` and `SETC` can answer. -/
theorem controlCodesAreWrittenWhole : Obligations.ControlCodesAreWrittenWhole := by
  intro s code hwf hs
  refine ⟨fun hle => ?_, fun hgt => ?_⟩
  · have hlegal : codeLegal code = true := decide_eq_true hle
    exact ⟨execSeth_next.2 ⟨hwf, hs, .inl ⟨hlegal, rfl⟩⟩, execSetc_next.2 ⟨hwf, hs, .inl ⟨hlegal, rfl⟩⟩⟩
  · have hillegal : codeLegal code = false := decide_eq_false hgt.not_ge
    exact ⟨execSeth_next.2 ⟨hwf, hs, .inr ⟨hillegal, rfl⟩⟩,
      execSetc_next.2 ⟨hwf, hs, .inr ⟨hillegal, rfl⟩⟩⟩

end Sys2Proof.Machine
end

section
/-! PROOFS. The waveform generators (`40_waveform.md`): the sawtooth's range and monotonicity (R111), one
noise draw per sample and none elsewhere (R113, R185), and that the draws are not heard while the noise
scale is 0 (R151). -/

namespace Sys2Proof.Machine

/-! ### The sawtooth (R110, R111) -/

theorem saw_zero : saw 0 = -1/2 := by norm_num [saw]

theorem saw_one : saw 1 = 1/2 := by norm_num [saw]

theorem saw_strictMono : StrictMono saw := fun _ _ h => sub_lt_sub_right h _

/-- Settles O17: the sawtooth rises, so on `[0,1]` it lies between its end values. -/
theorem sawtoothRangeAndMonotone : Obligations.SawtoothRangeAndMonotone := by
  refine ⟨fun p h0 h1 => ⟨?_, ?_⟩, fun _ _ h => saw_strictMono h, saw_zero, saw_one⟩
  · exact saw_zero.ge.trans (saw_strictMono.monotone h0)
  · exact (saw_strictMono.monotone h1).trans saw_one.le

/-! ### The draws of a run of samples (R113, R185) -/

/-- The draw of sample `j` is the injected one at position `j`, and past the injected ones the free
value at its place in the noise sequence (log entry 6). -/
theorem noiseRun_getElem? {k j : Nat} (hj : j < k) (s : State) :
    (noiseRun k s).1[j]? = some (s.draws.getD j (Config.freeDraw (s.drawPos + j))) := by
  induction k generalizing j s with
  | zero => exact absurd hj (Nat.not_lt_zero j)
  | succ k ih =>
    cases j with
    | zero =>
      simp only [noiseRun, noise, List.getElem?_cons_zero, takeDraw_value]
      cases s.draws <;> rfl
    | succ j =>
      simp only [noiseRun, noise, List.getElem?_cons_succ]
      rw [ih (Nat.lt_of_succ_lt_succ hj), takeDraw_frame]
      cases s.draws <;> simp [Nat.add_assoc, Nat.add_comm 1]

/-- A `PULL` that ends in `RUN` took one draw per sample (R185). -/
theorem State.Inv.execPull_draws {s t : State} (h : s.Inv) {nb : BitVec 32}
    (hx : execPull nb s = .next t) (hrun : t.opState = .run) :
    t.draws = s.draws.drop (nb.toNat / 2) ∧ t.drawPos = s.drawPos + nb.toNat / 2 := by
  obtain ⟨-, ⟨-, rfl⟩ | ⟨-, -, rfl⟩ | ⟨-, -, -, rfl⟩ | ⟨-, h2, hn, hp⟩⟩ := execPull_next.1 hx
  · cases hrun
  · cases hrun
  · cases hrun
  · rw [h.pullBytes_fields h2 hn] at hp
    obtain rfl := Except.ok.inj hp
    exact ⟨rfl, rfl⟩

/-- A `PULL` that ends in `FAULT` raised it before its effect, and took no draw (R201, R256). -/
theorem execPull_draws_of_fault {s t : State} {nb : BitVec 32} (hx : execPull nb s = .next t)
    (hfault : t.opState = .fault) : t.draws = s.draws ∧ t.drawPos = s.drawPos := by
  obtain ⟨-, ⟨-, rfl⟩ | ⟨-, -, rfl⟩ | ⟨-, -, -, rfl⟩ | ⟨hrun, -, -, hp⟩⟩ := execPull_next.1 hx
  · exact ⟨rfl, rfl⟩
  · exact ⟨rfl, rfl⟩
  · exact ⟨rfl, rfl⟩
  · have hstate : t.opState = s.opState := by rw [(pullBytes_frame hp).1]
    rw [hstate, hrun] at hfault
    cases hfault

/-- No command of port C takes a draw (R113). -/
theorem exec_portC_draws {i : Instr} {s t : State} (hport : i.port = .C) (hx : exec i s = .next t) :
    t.draws = s.draws ∧ t.drawPos = s.drawPos := by
  rw [(exec_portCFrame hport hx).rest]
  exact ⟨rfl, rfl⟩

/-- Settles O53: `PULL` is the one command of port A, and every other is within the frame of port C. -/
theorem oneDrawPerSample : Obligations.OneDrawPerSample := by
  refine ⟨fun s n => ⟨noiseRun_length .., fun k d hd => ?_⟩,
    fun s t nb h hx hrun => h.execPull_draws hx hrun, fun s t i hx hcase => ?_⟩
  · obtain ⟨hlen, -⟩ := List.getElem?_eq_some_iff.1 hd
    have hk : k < n / 2 := hlen.trans_eq (noiseRun_length ..)
    exact ⟨Option.some.inj (hd.symm.trans (noiseRun_getElem? hk s)), d.inRange⟩
  · cases i with
    | pull nb =>
      obtain hport | hfault := hcase
      · cases hport
      · exact execPull_draws_of_fault hx hfault
    | _ => exact exec_portC_draws rfl hx

/-! ### Silenced noise (R151, corner case 4) -/

/-- With a noise scale of 0 the mix value is that of any other draw. -/
theorem mixValue_of_silenced {s : State} (h : s.cdist = 0) (xi xi' : Draw) :
    mixValue xi s = mixValue xi' s := by
  simp only [mixValue, mixTotal, noiseTerm_of_silent h]

/-- With a noise scale of 0 generation depends on the number of draws only. -/
theorem generate_of_silenced {xs ys : List Draw} (hlen : xs.length = ys.length) {s : State}
    (hv : s.vcount ≤ s.ph.length) (hcd : s.cdist = 0) : generate xs s = generate ys s := by
  induction xs generalizing ys s with
  | nil => rw [List.length_eq_zero_iff.1 hlen.symm]
  | cons x xs ih =>
    obtain _ | ⟨y, ys⟩ := ys
    · cases hlen
    have hnext : ∀ q, generate xs (cast16 q (afterSample s)).2 =
        generate ys (cast16 q (afterSample s)).2 := by
      intro q
      rw [cast16_frame]
      exact ih (Nat.succ.inj hlen) (by simpa [afterSample] using hv) hcd
    rw [generate_cons x xs hv, generate_cons y ys hv, mixValue_of_silenced hcd x y, hnext]

/-- With a noise scale of 0 what a `PULL` generates under another noise input differs in that input
only. -/
theorem pullGenerated_of_silenced {s : State} (hv : s.vcount ≤ s.ph.length) (hcd : s.cdist = 0)
    (n : Nat) (ds : List Draw) (k : Nat) :
    (s.side s.tape s.cursor ds k s.audioOut).pullGenerated n =
      ((s.pullGenerated n).1, (s.pullGenerated n).2.side s.tape s.cursor ds k s.audioOut) := by
  have hlen : ((s.side s.tape s.cursor ds k s.audioOut).pullDraws n).length = (s.pullDraws n).length :=
    (noiseRun_length ..).trans (noiseRun_length ..).symm
  rw [State.pullGenerated, generate_side _ hv, generate_of_silenced hlen hv hcd]
  rfl

/-- Settles O54, from the closed form of a legal `PULL` under both noise inputs. -/
theorem silencedNoiseDoesNotLeak : Obligations.SilencedNoiseDoesNotLeak := by
  intro s nb ds k h hrun h2 hn hcd
  have h' : (s.side s.tape s.cursor ds k s.audioOut).Inv :=
    h.side h.tapeWf h.tapeBounds h.cursorRange h.cursorEven ..
  have hgen := pullGenerated_of_silenced h.voices hcd nb.toNat ds k
  have hpull := h'.pullBytes_fields h2 hn
  rw [hgen] at hpull
  exact ⟨_, (execPull_legal h.cfgWf hrun h2 hn).trans (finish_eq_next.2 (h.pullBytes_fields h2 hn)),
    (execPull_legal h'.cfgWf hrun h2 hn).trans (finish_eq_next.2 hpull)⟩

end Sys2Proof.Machine
end

section
/-! PROOFS. The phase accumulator (`41_phase_accumulator.md`): one call is the sum mod 1 (R122), many
calls have no accumulated error (R123), and a rational increment has its denominator as period (R124).

All three rest on one count: a call that wraps takes off exactly 1, so the phase after `k` calls and the
number of wraps on the way add up to `p + k * inc`. A phase in `[0,1)` is then the fractional part of
that sum, and the wraps are its integer part. -/

namespace Sys2Proof.Machine

/-! ### One call (R121, R122) -/

theorem phadv_of_wrap {p f fs : Rat} (h : 1 ≤ p + f / fs) : phadv p f fs = p + f / fs - 1 := if_pos h

theorem phadv_of_no_wrap {p f fs : Rat} (h : ¬ 1 ≤ p + f / fs) : phadv p f fs = p + f / fs := if_neg h

theorem phadv_eq_fract {p f fs : Rat} (hp : 0 ≤ p ∧ p < 1) (hfs : 0 < fs) (hf : 0 ≤ f ∧ f ≤ fs) :
    phadv p f fs = Int.fract (p + f / fs) := by
  obtain ⟨h0, h1⟩ := phadv_range hp hfs hf
  refine (Int.fract_eq_iff.2 ⟨h0, h1, ?_⟩).symm
  by_cases h : 1 ≤ p + f / fs
  · exact ⟨1, by simp [phadv_of_wrap h]⟩
  · exact ⟨0, by simp [phadv_of_no_wrap h]⟩

/-- Settles O18: the sum mod 1 by the range of one call, the bound from R9 and the voice count. -/
theorem phaseAdvanceIsModuloOne : Obligations.PhaseAdvanceIsModuloOne := by
  refine ⟨fun p f fs hp0 hp1 hfs hf0 hf1 => ?_, fun s i h hi => ?_⟩
  · obtain ⟨h0, h1⟩ := phadv_range ⟨hp0, hp1⟩ hfs ⟨hf0, hf1⟩
    exact ⟨h0, h1, phadv_eq_fract ⟨hp0, hp1⟩ hfs ⟨hf0, hf1⟩, phadv_of_wrap⟩
  · exact ⟨h.sampleRate_pos, h.voiceFrequency_range (hi.trans_le h.vcountRange.2)⟩

/-! ### Many calls with a constant increment (R123) -/

/-- The phase after `k` calls of `PHADV` from the phase `p`. -/
def phaseAfter (p f fs : Rat) (k : Nat) : Rat := (fun q => phadv q f fs)^[k] p

/-- How many of the first `k` calls wrap. -/
def wrapCount (p f fs : Rat) (k : Nat) : Nat :=
  ((Finset.range k).filter fun j => 1 ≤ phaseAfter p f fs j + f / fs).card

@[simp] theorem phaseAfter_zero (p f fs : Rat) : phaseAfter p f fs 0 = p := rfl

theorem phaseAfter_succ (p f fs : Rat) (k : Nat) :
    phaseAfter p f fs (k + 1) = phadv (phaseAfter p f fs k) f fs := Function.iterate_succ_apply' ..

@[simp] theorem wrapCount_zero (p f fs : Rat) : wrapCount p f fs 0 = 0 := rfl

theorem wrapCount_succ (p f fs : Rat) (k : Nat) : wrapCount p f fs (k + 1) =
    wrapCount p f fs k + if 1 ≤ phaseAfter p f fs k + f / fs then 1 else 0 := by
  simp only [wrapCount, Finset.card_filter, Finset.sum_range_succ]

/-- Each wrap takes off exactly 1, so nothing is lost but whole periods (R121). -/
theorem phaseAfter_add_wrapCount (p f fs : Rat) (k : Nat) :
    phaseAfter p f fs k + wrapCount p f fs k = p + k * (f / fs) := by
  induction k with
  | zero => simp
  | succ k ih =>
    rw [phaseAfter_succ, wrapCount_succ]
    split_ifs with h
    · rw [phadv_of_wrap h]
      push_cast
      linarith
    · rw [phadv_of_no_wrap h]
      push_cast
      linarith

theorem phaseAfter_range {p f fs : Rat} (hp : 0 ≤ p ∧ p < 1) (hfs : 0 < fs) (hf : 0 ≤ f ∧ f ≤ fs)
    (k : Nat) : 0 ≤ phaseAfter p f fs k ∧ phaseAfter p f fs k < 1 := by
  induction k with
  | zero => exact hp
  | succ k ih =>
    rw [phaseAfter_succ]
    exact phadv_range ih hfs hf

theorem phaseAfter_eq_fract {p f fs : Rat} (hp : 0 ≤ p ∧ p < 1) (hfs : 0 < fs) (hf : 0 ≤ f ∧ f ≤ fs)
    (k : Nat) : phaseAfter p f fs k = Int.fract (p + k * (f / fs)) := by
  obtain ⟨h0, h1⟩ := phaseAfter_range hp hfs hf k
  refine (Int.fract_eq_iff.2 ⟨h0, h1, wrapCount p f fs k, ?_⟩).symm
  rw [← phaseAfter_add_wrapCount, add_sub_cancel_left, Int.cast_natCast]

/-- Settles O19: the phase is in `[0,1)` and falls short of `p + k * inc` by the number of wraps. -/
theorem phaseAfterManySamplesIsExact : Obligations.PhaseAfterManySamplesIsExact :=
  fun _ _ _ k hp0 hp1 hfs hf0 hf1 => phaseAfter_eq_fract ⟨hp0, hp1⟩ hfs ⟨hf0, hf1⟩ k

/-! ### The period of a rational increment (R124) -/

theorem frequency_range_of_increment {f fs : Rat} {a b : Nat} (hfs : 0 < fs) (hab : a ≤ b)
    (hinc : f / fs = (a : Rat) / b) : 0 ≤ f ∧ f ≤ fs := by
  have h0 : 0 ≤ f / fs := hinc ▸ by positivity
  have h1 : f / fs ≤ 1 := hinc ▸ div_le_one_of_le₀ (Nat.cast_le.2 hab) b.cast_nonneg
  exact ⟨by simpa using (le_div_iff₀ hfs).1 h0, (div_le_one hfs).1 h1⟩

/-- The phase is back at its start exactly where the increments add up to whole periods. -/
theorem phaseAfter_eq_self_iff {p f fs : Rat} (hp : 0 ≤ p ∧ p < 1) (hfs : 0 < fs)
    (hf : 0 ≤ f ∧ f ≤ fs) (k : Nat) :
    phaseAfter p f fs k = p ↔ ∃ z : Int, (k : Rat) * (f / fs) = z := by
  rw [phaseAfter_eq_fract hp hfs hf, Int.fract_eq_iff, add_sub_cancel_left]
  exact ⟨fun h => h.2.2, fun h => ⟨hp.1, hp.2, h⟩⟩

theorem mul_div_eq_intCast_iff {a b : Nat} (hb : 0 < b) (hcop : Nat.Coprime a b) (k : Nat) :
    (∃ z : Int, (k : Rat) * ((a : Rat) / b) = z) ↔ b ∣ k := by
  have hb' : (b : Rat) ≠ 0 := Nat.cast_ne_zero.2 hb.ne'
  have hclear (z : Int) : (k : Rat) * ((a : Rat) / b) = z ↔ ((k * a : Nat) : Int) = b * z := by
    rw [← mul_div_assoc, div_eq_iff hb', mul_comm (z : Rat)]
    exact_mod_cast Iff.rfl
  simp only [hclear]
  rw [← hcop.symm.dvd_mul_right, ← Int.natCast_dvd_natCast]
  rfl

theorem phaseAfter_eq_self_iff_dvd {p f fs : Rat} {a b : Nat} (hp : 0 ≤ p ∧ p < 1) (hfs : 0 < fs)
    (hb : 0 < b) (hab : a ≤ b) (hcop : Nat.Coprime a b) (hinc : f / fs = (a : Rat) / b) (k : Nat) :
    phaseAfter p f fs k = p ↔ b ∣ k := by
  rw [phaseAfter_eq_self_iff hp hfs (frequency_range_of_increment hfs hab hinc), hinc,
    mul_div_eq_intCast_iff hb hcop]

/-- Over a run of calls that returns to its start the wraps are the increments' sum. -/
theorem wrapCount_of_phaseAfter_eq_self {p f fs : Rat} {k : Nat} (h : phaseAfter p f fs k = p) :
    (wrapCount p f fs k : Rat) = k * (f / fs) :=
  add_left_cancel (h ▸ phaseAfter_add_wrapCount p f fs k)

theorem wrapCount_period {p f fs : Rat} {a b : Nat} (hb : 0 < b) (hinc : f / fs = (a : Rat) / b)
    (h : phaseAfter p f fs b = p) : wrapCount p f fs b = a := by
  have hb' : (b : Rat) ≠ 0 := Nat.cast_ne_zero.2 hb.ne'
  have hcount := wrapCount_of_phaseAfter_eq_self h
  rw [hinc, mul_div_cancel₀ _ hb'] at hcount
  exact_mod_cast hcount

/-- A whole number `f` of hertz at a whole sample rate `n` has the period `n / gcd(f, n)`. -/
theorem phaseAfter_natCast_eq_self_iff {p : Rat} {f n : Nat} (hp : 0 ≤ p ∧ p < 1) (hn : 0 < n)
    (hf : f ≤ n) (k : Nat) : phaseAfter p f n k = p ↔ n / Nat.gcd f n ∣ k := by
  have hg : 0 < Nat.gcd f n := Nat.gcd_pos_of_pos_right f hn
  exact phaseAfter_eq_self_iff_dvd hp (Nat.cast_pos.2 hn)
    (Nat.div_pos (Nat.gcd_le_right f hn) hg) (Nat.div_le_div_right hf)
    (Nat.coprime_div_gcd_div_gcd hg) (Nat.cast_div_div_div_cancel_right
      (Nat.gcd_dvd_right f n) (Nat.gcd_dvd_left f n)).symm k

/-- Settles O20: `k * a / b` is whole exactly where `b` divides `k`, and at `b` it is the wrap count. -/
theorem phasePeriodIsTheDenominator : Obligations.PhasePeriodIsTheDenominator := by
  refine ⟨fun p f fs a b hp0 hp1 hfs ha hab hcop hinc => ?_, fun p f k hp0 hp1 _ hf => ?_⟩
  · have hb : 0 < b := ha.trans_le hab
    have hperiod := phaseAfter_eq_self_iff_dvd ⟨hp0, hp1⟩ hfs hb hab hcop hinc
    exact ⟨hperiod, wrapCount_period hb hinc ((hperiod b).2 dvd_rfl)⟩
  · exact phaseAfter_natCast_eq_self_iff ⟨hp0, hp1⟩ (by norm_num) hf k

end Sys2Proof.Machine
end

section
/-! PROOFS. The envelope generator (`42_envelope.md`): the triggers write its three registers (R134,
R135), a release lasts its period (R131 to R133), and nothing else re-arms a finished envelope (R136).

A release is followed sample by sample: as long as the increments since the trigger add up to less than 1
the envelope stands at their sum and is enabled, and from then on it stands at 1 and is disabled. -/

namespace Sys2Proof.Machine

/-! ### The triggers (R134, R135) -/

/-- Settles O28, from what `TRIGE` and `TRIGS` can answer. -/
theorem triggersRearmTheEnvelope : Obligations.TriggersRearmTheEnvelope :=
  fun _ hwf hs => ⟨execTrige_next.2 ⟨hwf, hs, rfl⟩, execTrigs_next.2 ⟨hwf, hs, rfl⟩⟩

/-! ### One advance (R131) -/

theorem envadv_of_terminal {s : State} (h : s.envEn = true) (hq : 1 ≤ s.envPh + envIncrement s) :
    envadv s = { s with envPh := 1, envEn := false } := by simp [envadv, h, hq]

theorem envadv_of_running {s : State} (h : s.envEn = true) (hq : s.envPh + envIncrement s < 1) :
    envadv s = { s with envPh := s.envPh + envIncrement s } := by simp [envadv, h, hq.not_ge]

/-! ### The release over a run of samples (R131, R133) -/

/-- One more sample is one more `ENVADV` (R133). -/
theorem generate_concat_envelope (xs : List Draw) (xi : Draw) {s : State} (h : s.vcount ≤ s.ph.length) :
    (generate (xs ++ [xi]) s).2.envPh = (envadv (generate xs s).2).envPh ∧
      (generate (xs ++ [xi]) s).2.envEn = (envadv (generate xs s).2).envEn := by
  obtain ⟨hrest, hlen, -⟩ := generate_frame xs h
  have hvoices : (generate xs s).2.vcount ≤ (generate xs s).2.ph.length := by
    rw [hlen, hrest]
    exact h
  rw [generate_append xs [xi] h, generate_cons xi [] hvoices, cast16_frame]
  exact ⟨rfl, rfl⟩

/-- The increment is constant over a release: generation writes neither `ENV_SEL` nor the configuration. -/
theorem generate_envIncrement (xs : List Draw) {s : State} (h : s.vcount ≤ s.ph.length) :
    envIncrement (generate xs s).2 = envIncrement s := by
  rw [(generate_frame xs h).1]
  rfl

/-- A state in a release whose increments add up to `q`: at phase `q` and enabled below 1, at phase 1 and
disabled from there on (R131). -/
structure ReleasedTo (q : Rat) (t : State) : Prop where
  running : q < 1 → t.envPh = q ∧ t.envEn = true
  finished : 1 ≤ q → t.envPh = 1 ∧ t.envEn = false

/-- `ENVADV` adds one increment to a release, finished or not (R131). -/
theorem ReleasedTo.envadv {q : Rat} {t : State} (h : ReleasedTo q t) (hinc : 0 < envIncrement t) :
    ReleasedTo (q + envIncrement t) (envadv t) := by
  obtain hq | hq := lt_or_ge q 1
  · obtain ⟨rfl, hen⟩ := h.running hq
    exact ⟨fun hlt => by simp [envadv_of_running hen hlt, hen],
      fun hge => by simp [envadv_of_terminal hen hge]⟩
  · obtain ⟨hph, hen⟩ := h.finished hq
    rw [envadv_of_disabled hen]
    exact ⟨fun hlt => by linarith, fun _ => ⟨hph, hen⟩⟩

theorem ReleasedTo.congr {q : Rat} {t u : State} (h : ReleasedTo q t) (hph : u.envPh = t.envPh)
    (hen : u.envEn = t.envEn) : ReleasedTo q u where
  running hq := by rw [hph, hen]; exact h.running hq
  finished hq := by rw [hph, hen]; exact h.finished hq

theorem rearm_releasedTo (sel : Bool) (s : State) : ReleasedTo 0 (rearm sel s) where
  running _ := ⟨rfl, rfl⟩
  finished h := absurd h (by norm_num)

/-- Each sample of a run adds one increment to the release. -/
theorem ReleasedTo.generate {q : Rat} {s : State} (h : ReleasedTo q s) (hv : s.vcount ≤ s.ph.length)
    (hinc : 0 < envIncrement s) (xs : List Draw) :
    ReleasedTo (q + xs.length * envIncrement s) (generate xs s).2 := by
  induction xs using List.reverseRecOn with
  | nil => simpa [Machine.generate] using h
  | append_singleton xs xi ih =>
    obtain ⟨hph, hen⟩ := generate_concat_envelope xs xi hv
    have hincGen := generate_envIncrement xs hv
    have hnext := (ih.envadv (hinc.trans_eq hincGen.symm)).congr hph hen
    rw [hincGen] at hnext
    convert hnext using 1
    rw [List.length_append, List.length_singleton]
    push_cast
    ring

/-- `N = ceil(T * SAMPLE_RATE_HZ)` is the smallest natural with `N * inc >= 1` (R132). -/
theorem mul_envIncrement_lt_one_iff {s : State} (hinc : 0 < envIncrement s) (k : Nat) :
    k * envIncrement s < 1 ↔ k < ⌈envPeriod s * s.cfg.sampleRateHz⌉₊ := by
  have hinv : envIncrement s = 1 / (envPeriod s * s.cfg.sampleRateHz) := div_div ..
  rw [hinv, one_div_pos] at hinc
  rw [hinv, mul_one_div, div_lt_one hinc, Nat.lt_ceil]

/-- Settles O21: a trigger starts a release at phase 0, to which `k` samples add `k * inc`. -/
theorem releaseLastsItsPeriod : Obligations.ReleaseLastsItsPeriod := by
  intro s sel xs h T N u
  have hr := h.rearm sel
  have hrelease : ReleasedTo (xs.length * envIncrement (rearm sel s)) u := by
    simpa using (rearm_releasedTo sel s).generate hr.voices hr.envIncrement_pos xs
  have hN : xs.length * envIncrement (rearm sel s) < 1 ↔ xs.length < N :=
    mul_envIncrement_lt_one_iff hr.envIncrement_pos xs.length
  refine ⟨fun hlt => ?_, fun hge => ?_⟩
  · obtain ⟨hph, hen⟩ := hrelease.running (hN.2 hlt)
    have hinc : envIncrement (rearm sel s) = 1 / (T * s.cfg.sampleRateHz) := div_div ..
    rw [envrel, hph, hinc]
    exact ⟨rfl, hen⟩
  · obtain ⟨hph, hen⟩ := hrelease.finished (not_lt.1 (mt hN.1 hge.not_gt))
    exact ⟨by rw [envrel, hph, sub_self], hen⟩

/-! ### Nothing but a trigger or reset re-arms (R136) -/

/-- The three envelope registers are the same in both states. -/
structure SameEnvelope (s t : State) : Prop where
  envPh : t.envPh = s.envPh
  envEn : t.envEn = s.envEn
  envSel : t.envSel = s.envSel

/-- Of the commands of port C only the triggers write the envelope registers (R38). -/
theorem exec_portC_sameEnvelope {i : Instr} {s t : State} (hport : i.port = .C) (hE : i ≠ .trige)
    (hS : i ≠ .trigs) (hx : exec i s = .next t) : SameEnvelope s t := by
  cases i with
  | pull nb => cases hport
  | openDevice r b c f =>
    obtain ⟨-, ⟨-, rfl⟩ | ⟨-, -, rfl⟩ | ⟨-, -, rfl⟩⟩ := execOpenDevice_next.1 hx <;> exact ⟨rfl, rfl, rfl⟩
  | closeDevice =>
    obtain ⟨-, ⟨-, rfl⟩ | ⟨-, rfl⟩⟩ := execCloseDevice_next.1 hx <;> exact ⟨rfl, rfl, rfl⟩
  | seth code => obtain ⟨-, -, ⟨-, rfl⟩ | ⟨-, rfl⟩⟩ := execSeth_next.1 hx <;> exact ⟨rfl, rfl, rfl⟩
  | setc code => obtain ⟨-, -, ⟨-, rfl⟩ | ⟨-, rfl⟩⟩ := execSetc_next.1 hx <;> exact ⟨rfl, rfl, rfl⟩
  | vinc => obtain ⟨-, -, rfl⟩ := execVinc_next.1 hx; exact ⟨rfl, rfl, rfl⟩
  | vdec => obtain ⟨-, -, rfl⟩ := execVdec_next.1 hx; exact ⟨rfl, rfl, rfl⟩
  | trige => exact absurd rfl hE
  | trigs => exact absurd rfl hS
  | rdstat sel =>
    obtain ⟨-, ⟨w, -, rfl⟩ | ⟨-, -, rfl⟩⟩ := execRdstat_next.1 hx <;> exact ⟨rfl, rfl, rfl⟩

/-- A `PULL` advances an enabled envelope only (R131). -/
theorem execPull_sameEnvelope {nb : BitVec 32} {s t : State} (hen : s.envEn = false)
    (hx : execPull nb s = .next t) : SameEnvelope s t := by
  obtain ⟨-, ⟨-, rfl⟩ | ⟨-, -, rfl⟩ | ⟨-, -, -, rfl⟩ | ⟨-, -, -, hp⟩⟩ := execPull_next.1 hx
  · exact ⟨rfl, rfl, rfl⟩
  · exact ⟨rfl, rfl, rfl⟩
  · exact ⟨rfl, rfl, rfl⟩
  · obtain ⟨hrest, -, hheld, -⟩ := pullBytes_frame hp
    obtain ⟨hdisabled, hph⟩ := hheld hen
    exact ⟨hph, hdisabled.trans hen.symm, by rw [hrest]⟩

/-- With the envelope disabled no command but a trigger writes its registers. -/
theorem exec_sameEnvelope {i : Instr} {s t : State} (hen : s.envEn = false) (hE : i ≠ .trige)
    (hS : i ≠ .trigs) (hx : exec i s = .next t) : SameEnvelope s t := by
  cases i with
  | pull nb => exact execPull_sameEnvelope hen hx
  | _ => exact exec_portC_sameEnvelope rfl hE hS hx

/-- Settles O22, by the input the step takes. -/
theorem envelopeNeverRearmsItself : Obligations.EnvelopeNeverRearmsItself := by
  intro s t hen hstep hreset htrigger
  obtain ⟨-, ⟨-, rfl⟩ | ⟨rest, hi, -⟩ | ⟨p, w, rest, c, -, -, -, rfl⟩ |
    ⟨p, w, rest, i, hi, hd, hx⟩⟩ := step_next_cases hstep
  · exact ⟨rfl, hen, rfl⟩
  · exact absurd hi (hreset rest)
  · exact ⟨rfl, hen, rfl⟩
  · obtain ⟨hE, hS⟩ := htrigger p w rest hi
    rw [hd] at hE hS
    have hsame := exec_sameEnvelope (s := { s with inputs := rest }) hen (fun h => hE (congrArg _ h))
      (fun h => hS (congrArg _ h)) hx
    exact ⟨hsame.envPh, hsame.envEn.trans hen, hsame.envSel⟩

end Sys2Proof.Machine
end

section
/-! PROOFS. The voice bank and the mixer (`43_voice_bank_mixer.md`): the voice count and its wrap (R160 to
R162), `CAST16` (R155 to R157), the mix value by its formula (R150, R151, R154) and within its bound
(R152).

`Laws/Synthesis.lean` gives `MIX` in closed form: `CAST16` of `mixValue`, on the state `afterSample`. The
formula of R151 and the bound of R152 are both facts about `mixValue`. -/

namespace Sys2Proof.Machine

/-! ### The voice count (R160, R161, R162) -/

/-- What `VINC` makes of a voice count `v` of a bank of `m` voices (R160). -/
def countUp (m v : Nat) : Nat := if v = m then 1 else v + 1

/-- What `VDEC` makes of a voice count `v` of a bank of `m` voices (R161). -/
def countDown (m v : Nat) : Nat := if v = 1 then m else v - 1

theorem exec_vinc {s : State} (hwf : s.cfg.wf = true) (hs : s.opState ≠ .fault) (v : Nat) :
    exec .vinc { s with vcount := v } = .next { s with vcount := countUp s.cfg.maxCount v } :=
  execVinc_next.2 ⟨hwf, hs, rfl⟩

theorem exec_vdec {s : State} (hwf : s.cfg.wf = true) (hs : s.opState ≠ .fault) (v : Nat) :
    exec .vdec { s with vcount := v } = .next { s with vcount := countDown s.cfg.maxCount v } :=
  execVdec_next.2 ⟨hwf, hs, rfl⟩

theorem countDown_countUp {m v : Nat} (hv : 1 ≤ v) : countDown m (countUp m v) = v := by
  unfold countUp
  split_ifs with h
  · exact h.symm
  · exact if_neg (by omega)

theorem countUp_countDown {m v : Nat} (hv : 1 ≤ v ∧ v ≤ m) : countUp m (countDown m v) = v := by
  unfold countDown
  split_ifs with h
  · exact (if_pos rfl).trans h.symm
  · exact (if_neg (by omega)).trans (Nat.sub_add_cancel hv.1)

/-- The closed form of R162 for `VINC`. -/
theorem countUp_eq_mod {m v : Nat} (hv : v ≤ m) : countUp m v = v % m + 1 := by
  unfold countUp
  split_ifs with h
  · rw [h, Nat.mod_self]
  · rw [Nat.mod_eq_of_lt (by omega)]

/-- The closed form of R162 for `VDEC`, over the integers: at a count of 1 the dividend is -1. -/
theorem countDown_eq_emod {m v : Nat} (hv : 1 ≤ v ∧ v ≤ m) :
    (countDown m v : Int) = ((v : Int) - 2) % m + 1 := by
  unfold countDown
  split_ifs with h
  · have hwrap : (v : Int) - 2 = (m - 1) - m := by omega
    rw [hwrap, Int.sub_emod_right, Int.emod_eq_of_lt (by omega) (by omega)]
    omega
  · rw [Int.emod_eq_of_lt (by omega) (by omega)]
    omega

/-- Settles O31: on a count of `1 .. MAX_COUNT` each step is the inverse of the other. -/
theorem voiceStepsUndoEachOther : Obligations.VoiceStepsUndoEachOther := by
  intro s h hs
  constructor
  · refine ⟨_, exec_vinc h.cfgWf hs s.vcount, ?_⟩
    rw [exec_vdec h.cfgWf hs, countDown_countUp h.vcountRange.1]
  · refine ⟨_, exec_vdec h.cfgWf hs s.vcount, ?_⟩
    rw [exec_vinc h.cfgWf hs, countUp_countDown h.vcountRange]

/-- Settles O30: the cases are the two meanings, the closed forms are those of the count alone. -/
theorem voiceCountStepsWithItsWrap : Obligations.VoiceCountStepsWithItsWrap :=
  fun s hwf hs h1 hm =>
    ⟨exec_vinc hwf hs s.vcount, exec_vdec hwf hs s.vcount, countUp_eq_mod hm, countDown_eq_emod ⟨h1, hm⟩⟩

/-! ### CAST16 (R14, R155, R156, R157) -/

theorem trunc_of_nonpos {q : Rat} (h : q ≤ 0) : trunc q = ⌈q⌉ := by
  rw [← neg_neg q, trunc_neg, trunc_of_nonneg (neg_nonneg.2 h), Int.ceil_neg]

theorem sext16_range {n : Nat} (h : n < 65536) : -32768 ≤ sext16 n ∧ sext16 n ≤ 32767 := by
  unfold sext16
  split_ifs <;> omega

theorem sext16_emod (n : Nat) : sext16 n % 65536 = (n : Int) % 65536 := by
  unfold sext16
  split_ifs <;> omega

theorem cast16_in_range {x : Rat} (h : -32768 ≤ trunc x ∧ trunc x ≤ 32767) (s : State) :
    cast16 x s = (trunc x, s) := if_pos (decide_eq_true h)

theorem cast16_out_of_range {x : Rat} (h : ¬ (-32768 ≤ trunc x ∧ trunc x ≤ 32767)) (s : State) :
    cast16 x s = (outOfRangeSample s.cfg.satPolicy (trunc x), { s with ovf := true }) :=
  if_neg (mt of_decide_eq_true h)

/-- Under `SATURATE` a value out of range becomes the nearer end of the range (R156). -/
theorem outOfRangeSample_saturate {t : Int} (h : ¬ (-32768 ≤ t ∧ t ≤ 32767)) :
    outOfRangeSample .saturate t = max (-32768) (min 32767 t) := by
  unfold outOfRangeSample
  dsimp only
  split_ifs <;> omega

/-- Under `WRAP` the sample is congruent to the value modulo `2^16` (R156). -/
theorem outOfRangeSample_wrap_emod (t : Int) : outOfRangeSample .wrap t % 65536 = t % 65536 := by
  have hmod : (((t.emod 65536).toNat : Nat) : Int) = t % 65536 :=
    Int.toNat_of_nonneg (Int.emod_nonneg t (by decide))
  exact (sext16_emod _).trans (by rw [hmod, Int.emod_emod_of_dvd t (dvd_refl _)])

/-- Either policy answers a 16-bit sample (R156). -/
theorem outOfRangeSample_range (policy : SatPolicy) (t : Int) :
    -32768 ≤ outOfRangeSample policy t ∧ outOfRangeSample policy t ≤ 32767 := by
  cases policy with
  | saturate =>
    unfold outOfRangeSample
    dsimp only
    split_ifs <;> omega
  | wrap =>
    have hlt : (t.emod 65536).toNat < 65536 := by
      have := Int.emod_lt_of_pos t (b := 65536) (by decide)
      change (t % 65536).toNat < 65536
      omega
    exact sext16_range hlt

/-- A sample is a 16-bit signed integer (R155). -/
theorem cast16_range (x : Rat) (s : State) : -32768 ≤ (cast16 x s).1 ∧ (cast16 x s).1 ≤ 32767 := by
  by_cases h : -32768 ≤ trunc x ∧ trunc x ≤ 32767
  · rw [cast16_in_range h]
    exact h
  · rw [cast16_out_of_range h]
    exact outOfRangeSample_range _ _

/-- Settles O25, by the two branches of the range test and the two policies. -/
theorem castTruncatesThenFollowsThePolicy : Obligations.CastTruncatesThenFollowsThePolicy := by
  intro x s
  refine ⟨trunc_of_nonneg, trunc_of_nonpos, fun h => cast16_in_range h s, fun h => ?_, cast16_range x s⟩
  rw [cast16_out_of_range h]
  refine ⟨rfl, fun hp => ?_, fun hp => ?_⟩
  · rw [hp]
    exact outOfRangeSample_saturate h
  · rw [hp]
    exact outOfRangeSample_wrap_emod (trunc x)

/-! ### The formula of MIX (R150, R151, R154) -/

/-- R151: the mix value, with the noise scale of R29 and the multiplier of R130 written out. -/
theorem mixValue_eq (xi : Draw) (s : State) :
    mixValue xi s =
      (∑ i ∈ Finset.range s.vcount, (s.ph.getD i 0 - 1 / 2) * s.cfg.aMax) * (1 - s.envPh) +
        xi.val * ((s.cdist.toNat : Rat) / 65536 * s.cfg.aMax / 2) := by
  simp only [mixValue, mixTotal, voiceSum, saw, zero_add, envrel, noiseTerm, State.cdistValue, controlValue]

/-- An advanced voice moves by its own frequency (R150, R151). -/
theorem advancedPhases_getElem?_active {s : State} {i k j : Nat} (hj : i ≤ j ∧ j < i + k)
    (hlen : j < s.ph.length) : (advancedPhases s i k)[j]? =
      some (phadv (s.ph.getD j 0) (voiceFrequency s j) s.cfg.sampleRateHz) := by
  simp [advancedPhases, hj, hlen]

/-- A voice that is not advanced holds its phase (R154). -/
theorem advancedPhases_getElem?_inactive (s : State) {i k j : Nat} (hj : ¬ (i ≤ j ∧ j < i + k)) :
    (advancedPhases s i k)[j]? = s.ph[j]? := by
  simp [advancedPhases, hj]

/-- `MIX` with the cast taken on the state before the sample, of which it reads the policy and `OVF` only
(R151, R155, R157). -/
theorem mix_eq (xi : Draw) {s : State} (h : s.vcount ≤ s.ph.length) :
    mix xi s = .ok ((cast16 (mixValue xi s) s).1,
      { afterSample s with ovf := (cast16 (mixValue xi s) s).2.ovf }) := by
  refine (mix_ok xi h).trans (congrArg Except.ok (Prod.ext ?_ ?_))
  · rw [cast16_value, cast16_value]
    rfl
  · rw [cast16_frame, cast16_frame]
    rfl

/-- Settles O23: `mix_eq` gives the sample and every field; the phases are those of `advancedPhases`. -/
theorem mixFollowsItsFormula : Obligations.MixFollowsItsFormula := by
  intro s xi hv
  dsimp only
  rw [← mixValue_eq xi s]
  refine ⟨_, _, mix_eq xi hv, rfl, rfl, fun i hi => ?_, fun i hi => ?_, rfl, rfl, rfl⟩
  · exact advancedPhases_getElem?_active ⟨Nat.zero_le i, by omega⟩ (by omega)
  · exact advancedPhases_getElem?_inactive s (by omega)

/-! ### The bound of R152, its upper end strict -/

/-- The sawtooth stays below `1/2`, as a phase stays below 1; so the voices stay below their bound. -/
theorem State.Inv.voiceSum_lt {s : State} (h : s.Inv) (i : Nat) {k : Nat} (hk : 1 ≤ k) :
    voiceSum s i k < k * (s.cfg.aMax / 2) := by
  have hterm : ∀ j ∈ Finset.range k, saw (s.ph.getD (i + j) 0) * s.cfg.aMax < s.cfg.aMax / 2 := by
    intro j _
    have hsaw : saw (s.ph.getD (i + j) 0) < 1 / 2 := by
      unfold saw
      linarith [(h.getD_ph_range (i + j)).2]
    linarith [mul_lt_mul_of_pos_right hsaw h.aMax_pos]
  calc voiceSum s i k
      < ∑ _j ∈ Finset.range k, s.cfg.aMax / 2 :=
        Finset.sum_lt_sum_of_nonempty (Finset.nonempty_range_iff.2 (by omega)) hterm
    _ = k * (s.cfg.aMax / 2) := by rw [Finset.sum_const, Finset.card_range, nsmul_eq_mul]

/-- A factor of `[0,1]` keeps a value in a half-open interval about 0. -/
theorem mul_mem_interval {x e B : Rat} (hx : -B ≤ x ∧ x < B) (he : 0 ≤ e ∧ e ≤ 1) :
    -B ≤ x * e ∧ x * e < B := by
  obtain ⟨hlo, hhi⟩ := hx
  rcases le_total 0 x with h | h
  · have hle : x * e ≤ x := mul_le_of_le_one_right h he.2
    have hnonneg : 0 ≤ x * e := mul_nonneg h he.1
    constructor <;> linarith
  · have hle : x ≤ x * e := le_mul_of_le_one_right h he.2
    have hnonpos : x * e ≤ 0 := mul_nonpos_of_nonpos_of_nonneg h he.1
    constructor <;> linarith

/-- The voices under the release multiplier lie in `[-(V A/2), V A/2)` (R152). -/
theorem State.Inv.envelopedSum_range {s : State} (h : s.Inv) :
    -(s.vcount * s.cfg.aMax / 2) ≤ voiceSum s 0 s.vcount * envrel s.envPh ∧
      voiceSum s 0 s.vcount * envrel s.envPh < s.vcount * s.cfg.aMax / 2 := by
  have hlo : -(s.vcount * (s.cfg.aMax / 2)) ≤ voiceSum s 0 s.vcount :=
    (abs_le.1 (h.abs_voiceSum_le 0 s.vcount)).1
  have he : 0 ≤ envrel s.envPh ∧ envrel s.envPh ≤ 1 :=
    ⟨sub_nonneg.2 h.envRange.2, sub_le_self 1 h.envRange.1⟩
  rw [mul_div_assoc]
  exact mul_mem_interval ⟨hlo, h.voiceSum_lt 0 h.vcountRange.1⟩ he

/-- The noise term is at most `Cd A/4` in magnitude (R112, R152). -/
theorem State.Inv.abs_noiseTerm_le_scaled {s : State} (h : s.Inv) (xi : Draw) :
    |noiseTerm xi s| ≤ s.cdistValue * s.cfg.aMax / 4 := by
  have hxi : |xi.val| ≤ 1 / 2 := abs_le.2 ⟨by linarith [xi.inRange.1], xi.inRange.2⟩
  have hscale : 0 ≤ s.cdistValue * s.cfg.aMax / 2 :=
    div_nonneg (mul_nonneg h.cdistValue_range.1 h.aMax_pos.le) zero_le_two
  unfold noiseTerm
  rw [abs_mul, abs_of_nonneg hscale]
  linarith [mul_le_mul_of_nonneg_right hxi hscale]

/-- R152: the two-sided bound on the mix value. -/
theorem State.Inv.mixValue_range {s : State} (h : s.Inv) (xi : Draw) :
    -(s.vcount * s.cfg.aMax / 2) - s.cdistValue * s.cfg.aMax / 4 ≤ mixValue xi s ∧
      mixValue xi s < s.vcount * s.cfg.aMax / 2 + s.cdistValue * s.cfg.aMax / 4 := by
  obtain ⟨hlo, hhi⟩ := h.envelopedSum_range
  obtain ⟨hnlo, hnhi⟩ := abs_le.1 (h.abs_noiseTerm_le_scaled xi)
  unfold mixValue mixTotal
  constructor <;> linarith

/-- Settles O24: the voice loop leaves what the mix value is computed from. -/
theorem mixValueStaysInItsBound : Obligations.MixValueStaysInItsBound := by
  intro s xi h
  have hloop := mixVoices_ok s.vcount 0 0 s (by simpa using h.voices)
  rw [zero_add] at hloop
  obtain ⟨hlo, hhi⟩ := h.mixValue_range xi
  have habs := h.abs_mixValue_le xi
  rw [mul_comm s.cfg.aMax] at habs
  exact ⟨_, _, hloop, hlo, hhi, habs⟩

end Sys2Proof.Machine
end

section
/-! PROOFS. The PCM encoder and the tape writer (`44_pcm_tape_writer.md`): a sample and its two bytes stand
for each other (R180, R181), and `TWRITE` stores the bytes of its samples and nothing else (R182).

A sample and a byte pair both stand for a residue modulo `2^16`. `pcmenc_emod` and `pcmenc_of_emod` say
that the bytes of `PCMENC` are the one pair with the sample's residue; `sext_16` answers the one sample of
the range with a given residue (`sext16_range`, `sext16_emod`). -/

namespace Sys2Proof.Machine

/-! ### PCMENC and its inverse (R180, R181) -/

theorem bytePair_lt (b0 b1 : Byte) : b0.toNat + 256 * b1.toNat < 65536 := by
  have h0 := b0.isLt
  have h1 := b1.isLt
  omega

/-- The bytes of a sample carry its residue modulo `2^16`, the low byte first (R180). -/
theorem pcmenc_emod (v : Int) :
    (((pcmenc v).1.toNat + 256 * (pcmenc v).2.toNat : Nat) : Int) = v % 65536 := by
  have hlo := Int.emod_nonneg v (b := 65536) (by decide)
  have hhi := Int.emod_lt_of_pos v (b := 65536) (by decide)
  change (((BitVec.ofNat 8 ((v % 65536).toNat % 256)).toNat +
    256 * (BitVec.ofNat 8 ((v % 65536).toNat / 256)).toNat : Nat) : Int) = v % 65536
  simp only [BitVec.toNat_ofNat]
  omega

/-- No other byte pair carries that residue. -/
theorem pcmenc_of_emod {v : Int} {b0 b1 : Byte}
    (h : v % 65536 = ((b0.toNat + 256 * b1.toNat : Nat) : Int)) : pcmenc v = (b0, b1) := by
  have hcode := (pcmenc_emod v).trans h
  have h0 := b0.isLt
  have h1 := (pcmenc v).1.isLt
  have hlow : (pcmenc v).1 = b0 := BitVec.eq_of_toNat_eq (by omega)
  have hhigh : (pcmenc v).2 = b1 := BitVec.eq_of_toNat_eq (by omega)
  exact Prod.ext hlow hhigh

theorem pcmdec_range (b0 b1 : Byte) : -32768 ≤ pcmdec b0 b1 ∧ pcmdec b0 b1 ≤ 32767 :=
  sext16_range (bytePair_lt b0 b1)

theorem pcmdec_emod (b0 b1 : Byte) :
    pcmdec b0 b1 % 65536 = ((b0.toNat + 256 * b1.toNat : Nat) : Int) := by
  have hlt := bytePair_lt b0 b1
  exact (sext16_emod _).trans (Int.emod_eq_of_lt (by omega) (by omega))

/-- Two samples of the range with one residue are equal, so decoding undoes encoding (R181). -/
theorem pcmdec_pcmenc {v : Int} (h : -32768 ≤ v ∧ v ≤ 32767) :
    pcmdec (pcmenc v).1 (pcmenc v).2 = v := by
  have hmod := (pcmdec_emod (pcmenc v).1 (pcmenc v).2).trans (pcmenc_emod v)
  have hrange := pcmdec_range (pcmenc v).1 (pcmenc v).2
  omega

theorem pcmenc_pcmdec (b0 b1 : Byte) : pcmenc (pcmdec b0 b1) = (b0, b1) :=
  pcmenc_of_emod (pcmdec_emod b0 b1)

/-- Settles O44: encoding and decoding undo each other, and a decoded sample is in range. -/
theorem sampleBytesAreABijection : Obligations.SampleBytesAreABijection :=
  ⟨fun _ hlo hhi => pcmdec_pcmenc ⟨hlo, hhi⟩,
    fun b0 b1 => ⟨(pcmdec_range b0 b1).1, (pcmdec_range b0 b1).2, pcmenc_pcmdec b0 b1, rfl⟩, rfl⟩

/-! ### TWRITE (R182) -/

/-- The `j`-th sample of a run has the bytes `2j` and `2j + 1` (R182); past the end both sides are those of
the zero sample. -/
theorem pcmBytes_getD (vs : List Int) (j : Nat) :
    (pcmBytes vs).getD (2 * j) 0 = (pcmenc (vs.getD j 0)).1 ∧
      (pcmBytes vs).getD (2 * j + 1) 0 = (pcmenc (vs.getD j 0)).2 := by
  induction vs generalizing j with
  | nil => simp [pcmBytes, pcmenc_zero]
  | cons v vs ih =>
    cases j with
    | zero => exact ⟨rfl, rfl⟩
    | succ j => exact ih j

/-- Settles O46: `twrite_ok` gives the written tape as one run of bytes, read back by
`Memory.read_writeRun`; `generate_frame` gives the registers. -/
theorem tapeWriterStoresItsSamples : Obligations.TapeWriterStoresItsSamples := by
  intro s pos xs h hfit
  obtain ⟨hframe, -, hlen⟩ := generate_frame xs h.voices
  have hread (a : Nat) := Memory.read_writeRun h.tapeWf pos (pcmBytes (generate xs s).1) a
  rw [pcmBytes_length, hlen] at hread
  refine ⟨_, twrite_ok xs pos s h.voices hfit, hlen, fun j hj => ?samples, fun a ha => ?others, ?registers⟩
  case samples =>
    obtain ⟨hlow, hhigh⟩ := pcmBytes_getD (generate xs s).1 j
    constructor
    · exact (hread _).trans (by rw [if_pos (by omega), Nat.add_sub_cancel_left, hlow])
    · exact (hread _).trans (by rw [if_pos (by omega), Nat.add_assoc, Nat.add_sub_cancel_left, hhigh])
  case others => exact (hread a).trans (if_neg (by omega))
  case registers =>
    rw [hframe]
    rfl

end Sys2Proof.Machine
end

section
/-! PROOFS. The ring buffer and the pull operation (`45_ring_buffer_pull.md`): `DRAIN` follows the cursor
law (R203), `REFILL` rewrites its region (R204), what a legal `PULL` delivers and rewrites (R205), that
the pulls of a run lose nothing and may be split at will (R207), and the stream law (R206, R209).

A legal `PULL` is one function of the state, `State.pulled`. Its tape is read by the distance from the
cursor, `State.byteAhead`: the pull shifts what lies ahead of the cursor by the bytes it delivers and
puts the new samples behind it. The output stream is what was delivered and then what lies ahead, so it
grows by those samples. -/

namespace Sys2Proof.Machine

/-! ### Addresses round the tape end -/

/-- Within one tape length the addresses from a cursor on are all different. -/
theorem ring_address_injective {L c i j : Nat} (hi : i < L) (hj : j < L)
    (h : (c + i) % L = (c + j) % L) : i = j := by
  have hmod : i ≡ j [MOD L] := Nat.ModEq.add_left_cancel' c h
  exact hmod.eq_of_lt_of_lt hi hj

/-- A ring of `n` bytes written from `c` on: its addresses read as its bytes, every other address as
before (R204). -/
theorem Memory.read_ringWrite {L c n : Nat} {m : List Host.Cell} (hm : Memory.wf m) (hc : c < L)
    {bs : List Byte} (hlen : bs.length = n) (hn : n ≤ L) :
    (∀ j < n, Memory.read (Memory.ringWrite L m c bs) ((c + j) % L) = bs.getD j 0) ∧
      ∀ a, (∀ j < n, a ≠ (c + j) % L) → Memory.read (Memory.ringWrite L m c bs) a = Memory.read m a := by
  subst hlen
  exact ⟨fun j hj => (Memory.read_ringWrite_at hm hc hn hj).trans (List.getD_eq_getElem _ _ hj).symm,
    fun a ha => Memory.read_ringWrite_off hm hc hn ha⟩

/-- A ring written in two runs, the second where the first ended, is written in one (R204, R207). -/
theorem Memory.ringWrite_append {L c : Nat} {m : List Host.Cell} (hm : Memory.wf m) (hc : c < L)
    {bs bs' : List Byte} (hfit : bs.length + bs'.length ≤ L) :
    Memory.ringWrite L (Memory.ringWrite L m c bs) ((c + bs.length) % L) bs' =
      Memory.ringWrite L m c (bs ++ bs') := by
  have hm1 := Memory.ringWrite_wf hm L c bs
  have hc' : (c + bs.length) % L < L := Nat.mod_lt _ (Nat.zero_lt_of_lt hc)
  have hlen : (bs ++ bs').length ≤ L := List.length_append.trans_le hfit
  have haddr (j : Nat) : ((c + bs.length) % L + j) % L = (c + (bs.length + j)) % L := by
    rw [Nat.mod_add_mod, Nat.add_assoc]
  refine Memory.ext_of_read (Memory.ringWrite_wf hm1 ..) (Memory.ringWrite_wf hm ..) fun a => ?_
  by_cases hin : ∃ j < bs.length + bs'.length, a = (c + j) % L
  · obtain ⟨j, hj, rfl⟩ := hin
    rw [Memory.read_ringWrite_at hm hc hlen (by simpa using hj)]
    rcases Nat.lt_or_ge j bs.length with hfirst | hsecond
    · have hoff : ∀ i < bs'.length, (c + j) % L ≠ ((c + bs.length) % L + i) % L := by
        intro i hi heq
        rw [haddr] at heq
        have := ring_address_injective (by omega) (by omega) heq
        omega
      rw [Memory.read_ringWrite_off hm1 hc' (by omega) hoff,
        Memory.read_ringWrite_at hm hc (by omega) hfirst, List.getElem_append_left hfirst]
    · obtain ⟨k, rfl⟩ := Nat.exists_eq_add_of_le hsecond
      have hk : k < bs'.length := by omega
      rw [← haddr, Memory.read_ringWrite_at hm1 hc' (by omega) hk]
      simp
  · push Not at hin
    rw [Memory.read_ringWrite_off hm hc hlen (fun j hj => hin j (by simpa using hj)),
      Memory.read_ringWrite_off hm1 hc' (by omega)
        (fun j hj => (hin (bs.length + j) (by omega)).trans_eq (haddr j).symm),
      Memory.read_ringWrite_off hm hc (by omega) (fun j hj => hin j (by omega))]

/-! ### The tape ahead of the cursor (R203) -/

/-- The tape byte `j` places ahead of the cursor, round the tape end. -/
def State.byteAhead (s : State) (j : Nat) : Byte := s.tapeByte ((s.cursor + j) % s.cfg.tapeLen)

theorem State.ringBytes_eq_map (s : State) (n : Nat) : s.ringBytes n = (List.range n).map s.byteAhead :=
  rfl

theorem State.ringBytes_getD (s : State) {n j : Nat} (hj : j < n) :
    (s.ringBytes n).getD j 0 = s.byteAhead j := by
  simp [State.ringBytes_eq_map, List.getD_eq_getElem?_getD, hj]

theorem State.ringBytes_add (s : State) (a b : Nat) :
    s.ringBytes (a + b) = s.ringBytes a ++ (List.range b).map fun j => s.byteAhead (a + j) := by
  simp only [State.ringBytes_eq_map, List.range_add, List.map_append, List.map_map]
  rfl

/-! ### A legal `PULL` as a function of the state (R205) -/

/-- The state a legal `PULL n` ends in (R205). -/
def State.pulled (s : State) (n : Nat) : State :=
  { s with
    ph := (s.pullGenerated n).2.ph
    envPh := (s.pullGenerated n).2.envPh
    envEn := (s.pullGenerated n).2.envEn
    ovf := (s.pullGenerated n).2.ovf
    tape := Memory.ringWrite s.cfg.tapeLen s.tape s.cursor (pcmBytes (s.pullGenerated n).1)
    cursor := (s.cursor + n) % s.cfg.tapeLen
    draws := s.draws.drop (n / 2)
    drawPos := s.drawPos + n / 2
    audioOut := s.audioOut ++ s.ringBytes n }

@[simp] theorem State.pulled_cfg (s : State) (n : Nat) : (s.pulled n).cfg = s.cfg := rfl
@[simp] theorem State.pulled_opState (s : State) (n : Nat) : (s.pulled n).opState = s.opState := rfl
@[simp] theorem State.pulled_inputs (s : State) (n : Nat) : (s.pulled n).inputs = s.inputs := rfl
@[simp] theorem State.pulled_cursor (s : State) (n : Nat) :
    (s.pulled n).cursor = (s.cursor + n) % s.cfg.tapeLen := rfl
@[simp] theorem State.pulled_tape (s : State) (n : Nat) : (s.pulled n).tape =
    Memory.ringWrite s.cfg.tapeLen s.tape s.cursor (pcmBytes (s.pullGenerated n).1) := rfl
@[simp] theorem State.pulled_draws (s : State) (n : Nat) :
    (s.pulled n).draws = s.draws.drop (n / 2) := rfl
@[simp] theorem State.pulled_drawPos (s : State) (n : Nat) :
    (s.pulled n).drawPos = s.drawPos + n / 2 := rfl
@[simp] theorem State.pulled_audioOut (s : State) (n : Nat) :
    (s.pulled n).audioOut = s.audioOut ++ s.ringBytes n := rfl

/-- A legal `PULL` executes and ends in that state (R201, R205). -/
theorem State.Inv.exec_pull {s : State} (h : s.Inv) {nb : BitVec 32} (hrun : s.opState = .run)
    (h2 : nb.toNat % 2 = 0) (hn : nb.toNat ≤ s.cfg.tapeLen) :
    Machine.exec (.pull nb) s = .next (s.pulled nb.toNat) :=
  (execPull_legal h.cfgWf hrun h2 hn).trans (finish_eq_next.2 (h.pullBytes_fields h2 hn))

theorem State.Inv.pulled {s : State} (h : s.Inv) {n : Nat} (h2 : n % 2 = 0) (hn : n ≤ s.cfg.tapeLen) :
    (s.pulled n).Inv :=
  h.pullBytes h2 hn (h.pullBytes_fields h2 hn)

/-- The drained region reads as the new samples' bytes (R205). -/
theorem State.Inv.pulled_tapeByte_of_drained {s : State} (h : s.Inv) {n : Nat} (h2 : n % 2 = 0)
    (hn : n ≤ s.cfg.tapeLen) {j : Nat} (hj : j < n) :
    (s.pulled n).tapeByte ((s.cursor + j) % s.cfg.tapeLen) =
      (pcmBytes (s.pullGenerated n).1).getD j 0 :=
  (Memory.read_ringWrite h.tapeWf h.cursorRange (h.pullGenerated_bytes h2) hn).1 j hj

/-- Every other address keeps its byte (R205). -/
theorem State.Inv.pulled_tapeByte_of_not_drained {s : State} (h : s.Inv) {n : Nat} (h2 : n % 2 = 0)
    (hn : n ≤ s.cfg.tapeLen) {a : Nat} (ha : ∀ j < n, a ≠ (s.cursor + j) % s.cfg.tapeLen) :
    (s.pulled n).tapeByte a = s.tapeByte a :=
  (Memory.read_ringWrite h.tapeWf h.cursorRange (h.pullGenerated_bytes h2) hn).2 a ha

/-- The old bytes ahead of the cursor come closer by the bytes delivered (R205). -/
theorem State.Inv.pulled_byteAhead_old {s : State} (h : s.Inv) {n : Nat} (h2 : n % 2 = 0) {j : Nat}
    (hj : n + j < s.cfg.tapeLen) : (s.pulled n).byteAhead j = s.byteAhead (n + j) := by
  have hn : n ≤ s.cfg.tapeLen := by omega
  have haddr : ((s.cursor + n) % s.cfg.tapeLen + j) % s.cfg.tapeLen =
      (s.cursor + (n + j)) % s.cfg.tapeLen := by
    rw [Nat.mod_add_mod, Nat.add_assoc]
  have hkept : ∀ i < n, (s.cursor + (n + j)) % s.cfg.tapeLen ≠ (s.cursor + i) % s.cfg.tapeLen := by
    intro i hi heq
    have := ring_address_injective hj (by omega) heq
    omega
  rw [State.byteAhead, State.pulled_cursor, State.pulled_cfg, haddr]
  exact h.pulled_tapeByte_of_not_drained h2 hn hkept

/-- Behind the old bytes ahead of the cursor come the new samples' bytes (R205). -/
theorem State.Inv.pulled_byteAhead_new {s : State} (h : s.Inv) {n : Nat} (h2 : n % 2 = 0)
    (hn : n ≤ s.cfg.tapeLen) {j : Nat} (hj : j < n) :
    (s.pulled n).byteAhead (s.cfg.tapeLen - n + j) = (pcmBytes (s.pullGenerated n).1).getD j 0 := by
  have haddr : ((s.cursor + n) % s.cfg.tapeLen + (s.cfg.tapeLen - n + j)) % s.cfg.tapeLen =
      (s.cursor + j) % s.cfg.tapeLen := by
    have hsum : s.cursor + n + (s.cfg.tapeLen - n + j) = s.cursor + j + s.cfg.tapeLen := by omega
    rw [Nat.mod_add_mod, hsum, Nat.add_mod_right]
  rw [State.byteAhead, State.pulled_cursor, State.pulled_cfg, haddr]
  exact h.pulled_tapeByte_of_drained h2 hn hj

/-- What one pull delivers and what then lies ahead are together what lay ahead before it (R207). -/
theorem State.Inv.ringBytes_append_pulled {s : State} (h : s.Inv) {n m : Nat} (h2 : n % 2 = 0)
    (hfit : n + m ≤ s.cfg.tapeLen) :
    s.ringBytes n ++ (s.pulled n).ringBytes m = s.ringBytes (n + m) := by
  rw [State.ringBytes_add, State.ringBytes_eq_map (s.pulled n)]
  congr 1
  refine List.map_congr_left fun j hj => h.pulled_byteAhead_old h2 ?_
  have := List.mem_range.1 hj
  omega

/-- One tape length ahead after a pull: the old bytes that were not delivered, then the new ones. -/
theorem State.Inv.pulled_ringBytes_tapeLen {s : State} (h : s.Inv) {n : Nat} (h2 : n % 2 = 0)
    (hn : n ≤ s.cfg.tapeLen) : (s.pulled n).ringBytes s.cfg.tapeLen =
      (s.pulled n).ringBytes (s.cfg.tapeLen - n) ++ pcmBytes (s.pullGenerated n).1 := by
  have hlen := h.pullGenerated_bytes h2
  conv_lhs => rw [← Nat.sub_add_cancel hn, State.ringBytes_add]
  congr 1
  refine List.ext_getElem (by simp [hlen]) fun j hj hj' => ?_
  rw [List.getElem_map, List.getElem_range, h.pulled_byteAhead_new h2 hn (hj'.trans_eq hlen),
    List.getD_eq_getElem _ _ hj']

/-- R209: the stream grows by the bytes of the new samples. -/
theorem State.Inv.pulled_stream {s : State} (h : s.Inv) {n : Nat} (h2 : n % 2 = 0)
    (hn : n ≤ s.cfg.tapeLen) :
    (s.pulled n).stream = s.stream ++ pcmBytes (s.pullGenerated n).1 := by
  have hold := h.ringBytes_append_pulled h2 (m := s.cfg.tapeLen - n) (Nat.add_sub_of_le hn).le
  rw [Nat.add_sub_of_le hn] at hold
  calc (s.pulled n).stream
      = s.audioOut ++ s.ringBytes n ++ (s.pulled n).ringBytes s.cfg.tapeLen := rfl
    _ = s.audioOut ++ (s.ringBytes n ++ (s.pulled n).ringBytes (s.cfg.tapeLen - n)) ++
          pcmBytes (s.pullGenerated n).1 := by
        rw [h.pulled_ringBytes_tapeLen h2 hn]
        simp only [List.append_assoc]
    _ = s.stream ++ pcmBytes (s.pullGenerated n).1 := by rw [hold]; rfl

/-! ### The stream law (R206, R209) -/

/-- The stream law speaks of the tape, the cursor, the delivered bytes and the tape length only. -/
theorem State.StreamInv.congr {s t : State} (h : s.StreamInv) (htape : t.tape = s.tape)
    (hcursor : t.cursor = s.cursor) (hout : t.audioOut = s.audioOut) (hcfg : t.cfg = s.cfg) :
    t.StreamInv := by
  have hstream : t.stream = s.stream := by
    simp only [State.stream, State.ringBytes, State.tapeByte, htape, hcursor, hout, hcfg]
  exact
    { cursorCounts := by rw [hcursor, hout, hcfg]; exact h.cursorCounts
      silentFirst := by rw [hstream, hcfg]; exact h.silentFirst }

/-- A legal `PULL` moves the cursor by what it delivers and only extends the stream. -/
theorem State.StreamInv.pulled {s : State} (hs : s.StreamInv) (h : s.Inv) {n : Nat} (h2 : n % 2 = 0)
    (hn : n ≤ s.cfg.tapeLen) : (s.pulled n).StreamInv where
  cursorCounts := by
    rw [State.pulled_cursor, State.pulled_audioOut, State.pulled_cfg, List.length_append,
      State.ringBytes_length, hs.cursorCounts, Nat.mod_add_mod]
  silentFirst := by
    have hlong : s.cfg.tapeLen ≤ s.stream.length := by simp [State.stream]
    rw [h.pulled_stream h2 hn, State.pulled_cfg, List.take_append_of_le_length hlong, hs.silentFirst]

/-- Every command keeps the stream law: `PULL` by its effect, the others by the frame of port C. -/
theorem State.StreamInv.exec {i : Instr} {s t : State} (hs : s.StreamInv) (h : s.Inv)
    (hx : Machine.exec i s = .next t) : t.StreamInv := by
  cases i with
  | pull nb =>
    obtain ⟨-, ⟨-, rfl⟩ | ⟨-, -, rfl⟩ | ⟨-, -, -, rfl⟩ | ⟨-, h2, hn, hp⟩⟩ := execPull_next.1 hx
    · exact hs.congr rfl rfl rfl rfl
    · exact hs.congr rfl rfl rfl rfl
    · exact hs.congr rfl rfl rfl rfl
    · obtain rfl := Except.ok.inj ((h.pullBytes_fields h2 hn).symm.trans hp)
      exact hs.pulled h h2 hn
  | _ =>
    have hframe := (exec_portCFrame rfl hx).rest
    exact hs.congr (by rw [hframe]) (by rw [hframe]) (by rw [hframe]) (by rw [hframe])

/-- Settles O15, by the input the step takes. -/
theorem everyStepKeepsTheStreamLaw : Obligations.EveryStepKeepsTheStreamLaw := by
  intro s t h hs hstep
  have hinputs (rest : List Input) : ({ s with inputs := rest } : State).StreamInv :=
    hs.congr rfl rfl rfl rfl
  obtain ⟨-, ⟨-, rfl⟩ | ⟨rest, -, rfl⟩ | ⟨p, w, rest, c, -, -, -, rfl⟩ |
    ⟨p, w, rest, i, -, -, hx⟩⟩ := step_next_cases hstep
  · exact hs
  · exact (State.resetOf_streamInv s.cfg).congr rfl rfl rfl rfl
  · exact hs.congr rfl rfl rfl rfl
  · exact (hinputs rest).exec (h.withInputs rest) hx

/-! ### `DRAIN` and `REFILL` (R203, R204) -/

/-- Settles O47: the cursor is left where a legal `PULL` leaves it, which the invariants bound. -/
theorem drainFollowsTheCursorLaw : Obligations.DrainFollowsTheCursorLaw := by
  intro s n h h2 hn
  have hpulled := h.pulled h2 hn
  exact ⟨_, s.ringBytes n, drain_ok h.cursorRange hn, rfl, rfl, hpulled.cursorEven, hpulled.cursorRange,
    s.ringBytes_length n, fun _ hj => s.ringBytes_getD hj⟩

/-- Settles O48: `refill_ok` gives the tape as one run of bytes round the tape end. -/
theorem refillRewritesItsRegion : Obligations.RefillRewritesItsRegion := by
  intro s c n xs h hc2 hc hx hn
  obtain ⟨hframe, -, hcount⟩ := generate_frame xs h.voices
  have hlen : (pcmBytes (generate xs s).1).length = n := by rw [pcmBytes_length, hcount, hx]
  obtain ⟨hregion, hothers⟩ := Memory.read_ringWrite h.tapeWf hc hlen hn
  refine ⟨_, refill_ok h.voices h.tapeLen_even hc2 hc hx hn, hregion, hothers, ?registers⟩
  case registers =>
    rw [hframe]
    rfl

/-! ### `PULL` (R201, R205) -/

/-- Inactive voices hold their phase over a run of samples (R154). -/
theorem generate_ph_inactive (xs : List Draw) {s : State} (h : s.vcount ≤ s.ph.length) {i : Nat}
    (hi : s.vcount ≤ i) : (generate xs s).2.ph[i]? = s.ph[i]? := by
  induction xs generalizing s with
  | nil => rfl
  | cons xi xs ih =>
    have hstep (q : Rat) : (generate xs (cast16 q (afterSample s)).2).2.ph[i]? =
        (afterSample s).ph[i]? := by
      rw [cast16_frame]
      exact ih (by simpa [afterSample] using h) hi
    rw [generate_cons xi xs h]
    exact (hstep _).trans (advancedPhases_getElem?_inactive s (by omega))

/-- Settles O49, from the closed form of a legal `PULL`. -/
theorem pullDeliversAndRefills : Obligations.PullDeliversAndRefills := by
  intro s nb h hrun h2 hn
  have hcount : (s.pullGenerated nb.toNat).1.length = nb.toNat / 2 :=
    (generate_frame _ h.voices).2.2.trans (noiseRun_length ..)
  exact ⟨s.pulled nb.toNat, h.exec_pull hrun h2 hn, rfl, rfl, hcount, h.pulled_stream h2 hn,
    fun _ hj => h.pulled_tapeByte_of_drained h2 hn hj,
    fun _ ha => h.pulled_tapeByte_of_not_drained h2 hn ha,
    fun _ hi => generate_ph_inactive _ h.voices hi, rfl⟩

/-- Settles O50: nothing is drained, and no sample is generated. -/
theorem pullOfNothingChangesNothing : Obligations.PullOfNothingChangesNothing := by
  intro s hwf hrun hc
  have hdrain : drain 0 s = .ok s := by
    rw [drain_ok hc (Nat.zero_le _), Nat.add_zero, Nat.mod_eq_of_lt hc]
    simp [State.ringBytes, State.side]
  have hrefill : refill s.cursor 0 [] s = .ok s := if_neg (by omega)
  have hpull : pullBytes 0 s = .ok s := by
    simp only [pullBytes, hdrain]
    exact hrefill
  exact (execPull_legal hwf hrun rfl (Nat.zero_le _)).trans (finish_eq_next.2 hpull)

/-! ### Two pulls are one (R207, R209) -/

/-- The effect of a legal `PULL` as generation and the fields generation does not touch. -/
theorem State.Inv.pulled_eq_side {s : State} (h : s.Inv) {n : Nat} (h2 : n % 2 = 0)
    (hn : n ≤ s.cfg.tapeLen) : s.pulled n = (s.pullGenerated n).2.side
      (Memory.ringWrite s.cfg.tapeLen s.tape s.cursor (pcmBytes (s.pullGenerated n).1))
      ((s.cursor + n) % s.cfg.tapeLen) (s.draws.drop (n / 2)) (s.drawPos + n / 2)
      (s.audioOut ++ s.ringBytes n) :=
  Except.ok.inj ((h.pullBytes_fields h2 hn).symm.trans
    (pullBytes_ok h.voices h.tapeLen_even h.cursorEven h.cursorRange h2 hn))

/-- What a pull generated is the state it ends in, but for the fields generation does not touch. -/
theorem State.Inv.pullGenerated_eq_side {s : State} (h : s.Inv) (n : Nat) :
    (s.pullGenerated n).2 = (s.pulled n).side s.tape s.cursor s.draws s.drawPos s.audioOut :=
  (generate_frame _ h.voices).1

/-- The draws of a pull are those of its first part and then those of the pull after it (R185). -/
theorem State.pullDraws_add (s : State) {n m : Nat} (h2 : n % 2 = 0) :
    s.pullDraws (n + m) = s.pullDraws n ++ (s.pulled n).pullDraws m := by
  have hhalf : (n + m) / 2 = n / 2 + m / 2 := by omega
  have hrest : (noiseRun (m / 2) (noiseRun (n / 2) s).2).1 = (s.pulled n).pullDraws m :=
    noiseRun_congr _ (by rw [noiseRun_frame]; rfl) (by rw [noiseRun_frame]; rfl)
  rw [State.pullDraws, hhalf, noiseRun_add, hrest]
  rfl

/-- What a pull generates is what its first part generates and then what the pull after it does. -/
theorem State.Inv.pullGenerated_add {s : State} (h : s.Inv) {n m : Nat} (h2 : n % 2 = 0)
    (hn : n ≤ s.cfg.tapeLen) : s.pullGenerated (n + m) =
      ((s.pullGenerated n).1 ++ ((s.pulled n).pullGenerated m).1,
        ((s.pulled n).pullGenerated m).2.side s.tape s.cursor s.draws s.drawPos s.audioOut) := by
  have hrest : Machine.generate ((s.pulled n).pullDraws m) (s.pullGenerated n).2 =
      (((s.pulled n).pullGenerated m).1,
        ((s.pulled n).pullGenerated m).2.side s.tape s.cursor s.draws s.drawPos s.audioOut) := by
    rw [h.pullGenerated_eq_side, generate_side _ (h.pulled h2 hn).voices]
    rfl
  rw [State.pullGenerated, State.pullDraws_add s h2, generate_append _ _ h.voices]
  exact congrArg (fun r : List Int × State => ((s.pullGenerated n).1 ++ r.1, r.2)) hrest

/-- R207: two pulls within one tape length are one. -/
theorem State.Inv.pulled_pulled {s : State} (h : s.Inv) {n m : Nat} (h2 : n % 2 = 0)
    (hm2 : m % 2 = 0) (hfit : n + m ≤ s.cfg.tapeLen) :
    (s.pulled n).pulled m = s.pulled (n + m) := by
  have hn : n ≤ s.cfg.tapeLen := by omega
  have hm : m ≤ s.cfg.tapeLen := by omega
  have hbytes := h.pullGenerated_bytes h2
  have hbytes' := (h.pulled h2 hn).pullGenerated_bytes hm2
  have htape := Memory.ringWrite_append h.tapeWf h.cursorRange (bs := pcmBytes (s.pullGenerated n).1)
    (bs' := pcmBytes ((s.pulled n).pullGenerated m).1) (by omega)
  rw [hbytes, ← pcmBytes_append] at htape
  have hhalf : (n + m) / 2 = n / 2 + m / 2 := by omega
  have hout := h.ringBytes_append_pulled h2 hfit
  rw [(h.pulled h2 hn).pulled_eq_side hm2 hm,
    h.pulled_eq_side (by omega) hfit, h.pullGenerated_add h2 hn, State.side_side, ← htape, ← hout, hhalf]
  simp [Nat.add_assoc]

/-- Settles O51. -/
theorem twoPullsAreOne : Obligations.TwoPullsAreOne := by
  intro s n m k h hrun hn2 hm2 hk hfit
  have hn : n.toNat ≤ s.cfg.tapeLen := by omega
  have hm : m.toNat ≤ s.cfg.tapeLen := by omega
  have hone := h.exec_pull (nb := k) hrun (by omega) hfit
  rw [hk, ← h.pulled_pulled hn2 hm2 (hk ▸ hfit)] at hone
  exact ⟨_, _, h.exec_pull hrun hn2 hn, (h.pulled hn2 hn).exec_pull hrun hm2 hm, hone⟩

/-! ### A run of pulls (R207) -/

/-- A step that takes a legal `PULL` word. -/
theorem State.Inv.step_pull {s : State} (h : s.Inv) {nb : BitVec 32} {rest : List Input}
    (hrun : s.opState = .run) (h2 : nb.toNat % 2 = 0) (hn : nb.toNat ≤ s.cfg.tapeLen)
    (hi : s.inputs = .command .A (encode (.pull nb)) :: rest) :
    step s = .next (({ s with inputs := rest } : State).pulled nb.toNat) := by
  have hdecode : decode .A (encode (.pull nb)) = .ok (.pull nb) := decode_encode (i := .pull nb) rfl
  rw [step_of_command hi, runWord_of_ok hdecode]
  exact (h.withInputs rest).exec_pull hrun h2 hn

/-- A run whose first step answers a next state goes on from there. -/
theorem run_succ_of_step {s t : State} (h : step s = .next t) (k : Nat) :
    Host.Core.run Sys2Proof.core (k + 1) s = Host.Core.run Sys2Proof.core k t := by
  have hcore : Sys2Proof.core.step s = .next t := h
  simp only [Host.Core.run, hcore]

/-- A run of legal pulls ends where their sum does, with every byte delivered. -/
theorem State.Inv.run_pulls {rest : List Input} (ns : List (BitVec 32)) {s : State} (h : s.Inv)
    (hrun : s.opState = .run) (hlegal : ∀ n ∈ ns, n.toNat % 2 = 0 ∧ n.toNat ≤ s.cfg.tapeLen)
    (hi : s.inputs = ns.map (fun n => Input.command .A (encode (.pull n))) ++ rest) :
    ∃ t, Host.Core.run Sys2Proof.core ns.length s = .next t ∧
      t.cursor = (s.cursor + (ns.map BitVec.toNat).sum) % s.cfg.tapeLen ∧
      t.audioOut.length = s.audioOut.length + (ns.map BitVec.toNat).sum ∧ t.inputs = rest := by
  induction ns generalizing s with
  | nil => exact ⟨s, rfl, (Nat.mod_eq_of_lt h.cursorRange).symm, rfl, hi⟩
  | cons n ns ih =>
    obtain ⟨⟨h2, hn⟩, hlater⟩ := List.forall_mem_cons.1 hlegal
    have hstep := h.step_pull hrun h2 hn hi
    obtain ⟨t, ht, hcursor, hout, hrest⟩ :=
      ih ((h.withInputs (ns.map _ ++ rest)).pulled h2 hn) hrun hlater rfl
    refine ⟨t, (run_succ_of_step hstep _).trans ht, ?_, ?_, hrest⟩
    · rw [hcursor]
      simp [Nat.add_assoc]
    · rw [hout]
      simp [Nat.add_assoc]

/-- Settles O52. -/
theorem pullsLoseNothing : Obligations.PullsLoseNothing := by
  intro s ns rest h hrun hlegal hi
  obtain ⟨t, ht, hcursor, hout, hrest⟩ := h.run_pulls ns hrun hlegal hi
  refine ⟨t, ht, hcursor, fun hdvd => ?_, hout, hrest⟩
  rw [hcursor, Nat.add_mod, Nat.mod_eq_zero_of_dvd hdvd, Nat.add_zero, Nat.mod_mod,
    Nat.mod_eq_of_lt h.cursorRange]

end Sys2Proof.Machine
end

section
/-! PROOFS. The system commands (`46_system.md`): `OPEN` negotiates the device spec (R230, R231), `CLOSE`
returns to `IDLE` (R232), each command is accepted, faulted with `E_STATE` or discarded as the state table
says (R235, R259), and `STATE` moves in no other way (R236, R260).

Acceptance and the lifecycle are both read off one fact, `exec_lifecycle`: what a command that answers a
next state makes of `STATE` and `FCAUSE`. -/

namespace Sys2Proof.Machine

/-! ### The device spec (R230, R231) -/

theorem deviceSpecMatches_iff {cfg : Cfg} {r : BitVec 32} {b : BitVec 16} {c f : BitVec 4} :
    deviceSpecMatches cfg r b c f = true ↔ r.toNat = cfg.sampleRateHz ∧ c.toNat = 1 ∧ f.toNat = 1 ∧
      b.toNat = cfg.deviceBufSamples := decide_eq_true_iff

/-- Settles O32, from what `OPEN` can answer. -/
theorem openNegotiatesTheDeviceSpec : Obligations.OpenNegotiatesTheDeviceSpec := by
  intro s r b c f hwf spec
  refine ⟨fun hidle hspec => ?_, fun hidle hspec => ?_, fun hrun => ?_⟩
  · have hmatch := deviceSpecMatches_iff.2 hspec
    exact execOpenDevice_next.2 ⟨hwf, .inr (.inl ⟨hidle, hmatch, rfl⟩)⟩
  · have hmismatch := Bool.eq_false_iff.2 (mt deviceSpecMatches_iff.1 hspec)
    exact execOpenDevice_next.2 ⟨hwf, .inr (.inr ⟨hidle, hmismatch, rfl⟩)⟩
  · exact execOpenDevice_next.2 ⟨hwf, .inl ⟨hrun, rfl⟩⟩

/-- Settles O33, from what `CLOSE` can answer. -/
theorem closeReturnsToIdle : Obligations.CloseReturnsToIdle :=
  fun _ hwf => ⟨fun hrun => execCloseDevice_next.2 ⟨hwf, .inr ⟨hrun, rfl⟩⟩,
    fun hidle => execCloseDevice_next.2 ⟨hwf, .inl ⟨hidle, rfl⟩⟩⟩

/-! ### What a command makes of `STATE` (R235, R236) -/

/-- The rows of the state table that answer `E_STATE` (R235). -/
def WrongState (s : State) : Instr → Prop
  | .pull _ => s.opState = .idle
  | .openDevice _ _ _ _ => s.opState = .run
  | .closeDevice => s.opState = .idle
  | _ => False

/-- The ways a command `i` that takes `s` to `t` may treat `STATE` and `FCAUSE` (R236). A fault it raises
carries `E_STATE` only where the state table says so (R235). -/
inductive LifecycleEffect (i : Instr) (s t : State) : Prop
  | opened (r : BitVec 32) (b : BitVec 16) (c f : BitVec 4) (instr : i = .openDevice r b c f)
      (spec : deviceSpecMatches s.cfg r b c f = true) (before : s.opState = .idle)
      (after : t = { s with opState := .run })
  | closed (instr : i = .closeDevice) (before : s.opState = .run) (after : t = { s with opState := .idle })
  | faulted (c : Cause) (wrongState : c = .state → WrongState s i) (before : s.opState ≠ .fault)
      (after : t = takeFault c i.port (encode i) s)
  | kept (opState : t.opState = s.opState) (fcause : t.fcause = s.fcause)

/-- Every command treats `STATE` and `FCAUSE` in one of these ways, in every state. -/
theorem exec_lifecycle {i : Instr} {s t : State} (hx : exec i s = .next t) : LifecycleEffect i s t := by
  cases i with
  | pull nb =>
    obtain ⟨-, ⟨hs, rfl⟩ | ⟨hs, -, rfl⟩ | ⟨hs, -, -, rfl⟩ | ⟨-, -, -, hp⟩⟩ := execPull_next.1 hx
    · exact .faulted .state (fun _ => hs) (by simp [hs]) rfl
    · exact .faulted .align nofun (by simp [hs]) rfl
    · exact .faulted .length nofun (by simp [hs]) rfl
    · obtain ⟨hrest, -⟩ := pullBytes_frame hp
      exact .kept (by rw [hrest]) (by rw [hrest])
  | openDevice r b c f =>
    obtain ⟨-, ⟨hs, rfl⟩ | ⟨hs, hspec, rfl⟩ | ⟨hs, -, rfl⟩⟩ := execOpenDevice_next.1 hx
    · exact .faulted .state (fun _ => hs) (by simp [hs]) rfl
    · exact .opened r b c f rfl hspec hs rfl
    · exact .faulted .negotiation nofun (by simp [hs]) rfl
  | closeDevice =>
    obtain ⟨-, ⟨hs, rfl⟩ | ⟨hs, rfl⟩⟩ := execCloseDevice_next.1 hx
    · exact .faulted .state (fun _ => hs) (by simp [hs]) rfl
    · exact .closed rfl hs rfl
  | seth code =>
    obtain ⟨-, hs, ⟨-, rfl⟩ | ⟨-, rfl⟩⟩ := execSeth_next.1 hx
    · exact .kept rfl rfl
    · exact .faulted .field nofun hs rfl
  | setc code =>
    obtain ⟨-, hs, ⟨-, rfl⟩ | ⟨-, rfl⟩⟩ := execSetc_next.1 hx
    · exact .kept rfl rfl
    · exact .faulted .field nofun hs rfl
  | vinc => obtain ⟨-, -, rfl⟩ := execVinc_next.1 hx; exact .kept rfl rfl
  | vdec => obtain ⟨-, -, rfl⟩ := execVdec_next.1 hx; exact .kept rfl rfl
  | trige => obtain ⟨-, -, rfl⟩ := execTrige_next.1 hx; exact .kept rfl rfl
  | trigs => obtain ⟨-, -, rfl⟩ := execTrigs_next.1 hx; exact .kept rfl rfl
  | rdstat sel =>
    obtain ⟨-, ⟨w, -, rfl⟩ | ⟨-, hs, rfl⟩⟩ := execRdstat_next.1 hx
    · exact .kept rfl rfl
    · exact .faulted .field nofun hs rfl

/-! ### Acceptance (R235, R259) -/

/-- In `FAULT` every command but `RDSTAT` is discarded. -/
theorem exec_in_fault {i : Instr} {s : State} (hwf : s.cfg.wf = true) (hs : s.opState = .fault)
    (hi : ∀ sel, i ≠ .rdstat sel) : exec i s = .fault .discarded := by
  cases i with
  | rdstat sel => exact absurd rfl (hi sel)
  | _ => exact accepted_in_fault hwf hs

/-- A well-formed `RDSTAT` executes in every state (R233). -/
theorem exec_rdstat_of_wf {sel : BitVec 4} {s : State} (hwf : s.cfg.wf = true)
    (hsel : (Instr.rdstat sel).wf = true) : ∃ t, exec (.rdstat sel) s = .next t := by
  obtain ⟨w, hw, -⟩ := statusValue_of_legal s (of_decide_eq_true hsel)
  exact ⟨_, execRdstat_of_some hwf hw⟩

theorem exec_of_wrongState {i : Instr} {s : State} (hwf : s.cfg.wf = true) (h : WrongState s i) :
    exec i s = .next (takeFault .state i.port (encode i) s) := by
  cases i with
  | pull nb => exact execPull_next.2 ⟨hwf, .inl ⟨h, rfl⟩⟩
  | openDevice r b c f => exact execOpenDevice_next.2 ⟨hwf, .inl ⟨h, rfl⟩⟩
  | closeDevice => exact execCloseDevice_next.2 ⟨hwf, .inl ⟨h, rfl⟩⟩
  | _ => exact h.elim

/-- `E_STATE` is the only cause with the code 3 (R251). -/
theorem causeCode_eq_three_iff {c : Cause} : causeCode c = 3 ↔ c = .state := by
  cases c <;> decide

/-- A command raises `E_STATE` only where the state table says so. -/
theorem LifecycleEffect.fcause_ne_three {i : Instr} {s t : State} (h : LifecycleEffect i s t)
    (hi : ¬ WrongState s i) (hs : s.fcause ≠ 3) : t.fcause ≠ 3 := by
  cases h with
  | opened r b c f instr spec before after => exact after ▸ hs
  | closed instr before after => exact after ▸ hs
  | faulted c wrongState before after =>
    rw [after, takeFault_fcause, ne_eq, causeCode_eq_three_iff]
    exact mt wrongState hi
  | kept opState fcause => exact fcause ▸ hs

/-- Settles O35. -/
theorem acceptanceByState : Obligations.AcceptanceByState := by
  intro s i hwf hi wrongState
  have hwrong : wrongState = WrongState s i := by cases i <;> rfl
  rw [hwrong]
  refine ⟨exec_in_fault hwf, ?_, exec_of_wrongState hwf, ?_⟩
  · rintro - ⟨sel, rfl⟩
    exact exec_rdstat_of_wf hwf hi
  · intro _ hcause hright t hx
    exact (exec_lifecycle hx).fcause_ne_three hright hcause

/-! ### The lifecycle (R236, R260) -/

/-- Settles O39, by the input the step takes and, for a command, by its effect on `STATE`. -/
theorem lifecycleTransitions : Obligations.LifecycleTransitions := by
  intro s t hstep
  obtain ⟨-, ⟨-, rfl⟩ | ⟨rest, hi, rfl⟩ | ⟨p, w, rest, c, -, -, hs, rfl⟩ |
    ⟨p, w, rest, i, hi, hd, hx⟩⟩ := step_next_cases hstep
  · exact .inr (.inr (.inr (.inr ⟨rfl, rfl⟩)))
  · exact .inl ⟨⟨rest, hi⟩, rfl⟩
  · exact .inr (.inr (.inr (.inl ⟨hs, rfl, causeCode_ne_zero c⟩)))
  · obtain rfl := decode_port hd
    cases exec_lifecycle hx with
    | opened r b c f instr spec before after =>
      subst instr after
      exact .inr (.inl ⟨⟨w, rest, r, b, c, f, hi, hd, spec⟩, before, rfl⟩)
    | closed instr before after =>
      subst instr after
      exact .inr (.inr (.inl ⟨⟨w, rest, hi, hd⟩, before, rfl⟩))
    | faulted c wrongState before after =>
      subst after
      exact .inr (.inr (.inr (.inl ⟨before, rfl, causeCode_ne_zero c⟩)))
    | kept opState fcause => exact .inr (.inr (.inr (.inr ⟨opState, fcause⟩)))

end Sys2Proof.Machine
end

section
/-! PROOFS. Exceptions and reset (`60_exceptions.md`, `70_reset_and_hazards.md`): which words complete
within the invariants (R254), what a fault writes (R256, R257), which fault is reported (R258), what
`FAULT` answers (R259, R260) and shows (R262), and the two steps that take no word: waiting (R292) and
reset (R290).

Completion comes in two halves. Outside `FAULT` every word completes: a rejected one by its fault, a
decoded one because `exec` does. In `FAULT` only `RDSTAT` completes, and every other word is discarded. -/

namespace Sys2Proof.Machine

/-! ### Commands complete outside `FAULT` (R254) -/

theorem OpState.idle_or_run {o : OpState} (h : o ≠ .fault) : o = .idle ∨ o = .run := by
  cases o with
  | idle => exact .inl rfl
  | run => exact .inr rfl
  | fault => exact absurd rfl h

/-- A well-formed command other than `PULL`, `OPEN` and `CLOSE` meets no fault condition (R235, R258). -/
theorem exec_keeps_opState {i : Instr} {s : State} (hcfg : s.cfg.wf = true) (hs : s.opState ≠ .fault)
    (hi : i.wf = true) (hclose : i ≠ .closeDevice) (hpull : ∀ n, i ≠ .pull n)
    (hopen : ∀ r b c f, i ≠ .openDevice r b c f) :
    ∃ t, exec i s = .next t ∧ t.opState = s.opState ∧ t.fcause = s.fcause := by
  cases i with
  | pull n => exact absurd rfl (hpull n)
  | openDevice r b c f => exact absurd rfl (hopen r b c f)
  | closeDevice => exact absurd rfl hclose
  | seth code => exact ⟨_, execSeth_next.2 ⟨hcfg, hs, .inl ⟨hi, rfl⟩⟩, rfl, rfl⟩
  | setc code => exact ⟨_, execSetc_next.2 ⟨hcfg, hs, .inl ⟨hi, rfl⟩⟩, rfl, rfl⟩
  | vinc => exact ⟨_, execVinc_next.2 ⟨hcfg, hs, rfl⟩, rfl, rfl⟩
  | vdec => exact ⟨_, execVdec_next.2 ⟨hcfg, hs, rfl⟩, rfl, rfl⟩
  | trige => exact ⟨_, execTrige_next.2 ⟨hcfg, hs, rfl⟩, rfl, rfl⟩
  | trigs => exact ⟨_, execTrigs_next.2 ⟨hcfg, hs, rfl⟩, rfl, rfl⟩
  | rdstat sel =>
    obtain ⟨v, hv, -⟩ := statusValue_of_legal s (of_decide_eq_true hi)
    exact ⟨_, execRdstat_of_some hcfg hv, rfl, rfl⟩

/-- A `PULL` completes: by its first fault condition, or because its tape accesses and voices are all
in range (R201, R205). -/
theorem State.Inv.exec_pull_completes {s : State} (h : s.Inv) (hs : s.opState ≠ .fault)
    (nb : BitVec 32) : ∃ t, Machine.exec (.pull nb) s = .next t := by
  obtain hidle | hrun := OpState.idle_or_run hs
  · exact ⟨_, exec_of_wrongState h.cfgWf hidle⟩
  · by_cases h2 : nb.toNat % 2 = 0
    · obtain hn | hn := le_or_gt nb.toNat s.cfg.tapeLen
      · exact ⟨_, h.exec_pull hrun h2 hn⟩
      · exact ⟨_, execPull_next.2 ⟨h.cfgWf, .inr (.inr (.inl ⟨hrun, h2, hn, rfl⟩))⟩⟩
    · exact ⟨_, execPull_next.2 ⟨h.cfgWf, .inr (.inl ⟨hrun, h2, rfl⟩)⟩⟩

theorem execOpenDevice_completes {s : State} (hcfg : s.cfg.wf = true) (hs : s.opState ≠ .fault)
    (r : BitVec 32) (b : BitVec 16) (c f : BitVec 4) :
    ∃ t, exec (.openDevice r b c f) s = .next t := by
  obtain hidle | hrun := OpState.idle_or_run hs
  · cases hm : deviceSpecMatches s.cfg r b c f with
    | true => exact ⟨_, execOpenDevice_next.2 ⟨hcfg, .inr (.inl ⟨hidle, hm, rfl⟩)⟩⟩
    | false => exact ⟨_, execOpenDevice_next.2 ⟨hcfg, .inr (.inr ⟨hidle, hm, rfl⟩)⟩⟩
  · exact ⟨_, exec_of_wrongState hcfg hrun⟩

theorem execCloseDevice_completes {s : State} (hcfg : s.cfg.wf = true) (hs : s.opState ≠ .fault) :
    ∃ t, exec .closeDevice s = .next t := by
  obtain hidle | hrun := OpState.idle_or_run hs
  · exact ⟨_, exec_of_wrongState hcfg hidle⟩
  · exact ⟨_, execCloseDevice_next.2 ⟨hcfg, .inr ⟨hrun, rfl⟩⟩⟩

/-- Within the invariants and outside `FAULT` every well-formed command completes (R254). -/
theorem State.Inv.exec_completes {i : Instr} {s : State} (h : s.Inv) (hs : s.opState ≠ .fault)
    (hi : i.wf = true) : ∃ t, Machine.exec i s = .next t := by
  cases i with
  | pull nb => exact h.exec_pull_completes hs nb
  | openDevice r b c f => exact execOpenDevice_completes h.cfgWf hs r b c f
  | closeDevice => exact execCloseDevice_completes h.cfgWf hs
  | _ =>
    obtain ⟨t, ht, -⟩ := exec_keeps_opState h.cfgWf hs hi nofun nofun nofun
    exact ⟨t, ht⟩

/-! ### Words (R254, R259) -/

/-- Within the invariants and outside `FAULT` every word completes, a rejected one by its fault. -/
theorem State.Inv.runWord_completes {s : State} (h : s.Inv) (hs : s.opState ≠ .fault) (p : Port)
    (w : Word) : ∃ t, runWord p w s = .next t := by
  rcases hd : decode p w with c | i
  · exact ⟨_, runWord_of_error_ok hd h.cfgWf hs⟩
  · rw [runWord_of_ok hd]
    exact h.exec_completes hs (wf_of_decode hd)

/-- A word that decodes to `RDSTAT` is answered by one response word in every state (R233, R260). -/
theorem runWord_of_rdstat {p : Port} {w : Word} {sel : BitVec 4} {s : State}
    (hcfg : s.cfg.wf = true) (hd : decode p w = .ok (.rdstat sel)) :
    ∃ v, runWord p w s = .next (respond v s) := by
  obtain ⟨v, hv, -⟩ := statusValue_of_legal s (of_decide_eq_true (wf_of_decode hd))
  exact ⟨v, (runWord_of_ok hd).trans (execRdstat_of_some hcfg hv)⟩

/-- In `FAULT` every word but a well-formed `RDSTAT` is discarded (R259). -/
theorem runWord_in_fault {p : Port} {w : Word} {s : State} (hcfg : s.cfg.wf = true)
    (hs : s.opState = .fault) (hw : ∀ sel, decode p w ≠ .ok (.rdstat sel)) :
    runWord p w s = .fault .discarded := by
  rcases hd : decode p w with c | i
  · exact (runWord_of_error hd).trans (accepted_in_fault hcfg hs)
  · have hi : ∀ sel, i ≠ .rdstat sel := fun sel hi => hw sel (hi ▸ hd)
    exact (runWord_of_ok hd).trans (exec_in_fault hcfg hs hi)

/-- Within the invariants a word either completes or is discarded in `FAULT`. -/
theorem State.Inv.runWord_completes_or_discarded {s : State} (h : s.Inv) (p : Port) (w : Word) :
    (∃ t, runWord p w s = .next t) ∨ (s.opState = .fault ∧ runWord p w s = .fault .discarded) := by
  by_cases hs : s.opState = .fault
  · by_cases hw : ∃ sel, decode p w = .ok (.rdstat sel)
    · obtain ⟨sel, hd⟩ := hw
      obtain ⟨v, hv⟩ := runWord_of_rdstat h.cfgWf hd
      exact .inl ⟨_, hv⟩
    · exact .inr ⟨hs, runWord_in_fault h.cfgWf hs (not_exists.1 hw)⟩
  · exact .inl (h.runWord_completes hs p w)

/-! ### Steps without a word (R290, R292) -/

theorem step_waits {s : State} (hcfg : s.cfg.wf = true) (h : s.inputs = []) : step s = .next s :=
  (step_of_no_input h).trans (configured_of_wf hcfg)

theorem step_takes_reset {s : State} {rest : List Input} (hcfg : s.cfg.wf = true)
    (h : s.inputs = .reset :: rest) : step s = .next (takeReset { s with inputs := rest }) :=
  (step_of_reset h).trans (configured_of_wf hcfg)

/-- Within the invariants a step either completes or discards a word in `FAULT`. -/
theorem State.Inv.step_completes_or_discarded {s : State} (h : s.Inv) :
    (∃ t, step s = .next t) ∨ (s.opState = .fault ∧ step s = .fault .discarded) := by
  rcases hi : s.inputs with _ | ⟨_ | ⟨p, w⟩, rest⟩
  · exact .inl ⟨_, step_waits h.cfgWf hi⟩
  · exact .inl ⟨_, step_takes_reset h.cfgWf hi⟩
  · rw [step_of_command hi]
    exact (h.withInputs rest).runWord_completes_or_discarded p w

/-! ### What a fault writes (R256, R257) -/

/-- A command that takes a state outside `FAULT` to `FAULT` did so by fault entry alone. -/
theorem exec_fault_entry {i : Instr} {s t : State} (hs : s.opState ≠ .fault)
    (hx : exec i s = .next t) (ht : t.opState = .fault) :
    ∃ c, t = takeFault c i.port (encode i) s := by
  cases exec_lifecycle hx with
  | opened r b c f instr spec before after =>
    subst after
    cases ht
  | closed instr before after =>
    subst after
    cases ht
  | faulted c wrongState before after => exact ⟨c, after⟩
  | kept opState fcause => exact absurd (opState.symm.trans ht) hs

/-- A fault raised while a decoded word executes is recorded with that word and its port. -/
theorem runWord_of_raised {p : Port} {w : Word} {i : Instr} {c : Cause} {s : State}
    (hd : decode p w = .ok i) (hx : exec i s = .next (takeFault c i.port (encode i) s)) :
    runWord p w s = .next (takeFault c p w s) := by
  rw [runWord_of_ok hd, hx, decode_port hd, encode_of_decode hd]

/-! ### The obligations -/

/-- Settles O9. -/
theorem stepWaitsWithoutInput : Obligations.StepWaitsWithoutInput := fun _ => step_waits

/-- Settles O10: the state reset leaves, member by member. -/
theorem resetIsTakenInEveryState : Obligations.ResetIsTakenInEveryState :=
  fun _ _ hcfg hi => ⟨_, step_takes_reset hcfg hi, rfl, rfl, rfl, rfl, rfl, rfl, rfl, fun _ => rfl, rfl,
    rfl, rfl, rfl, rfl, rfl, rfl, rfl, rfl, rfl⟩

/-- Settles O16: a step that does not complete discards a word in `FAULT`. -/
theorem theOnlyStopIsDiscarding : Obligations.TheOnlyStopIsDiscarding := by
  intro s h
  obtain ⟨t, hstep⟩ | ⟨hs, hstep⟩ := h.step_completes_or_discarded
  · rw [hstep]
    exact ⟨nofun, nofun⟩
  · rw [hstep]
    exact ⟨nofun, fun f hf => ⟨(Host.Outcome.fault.inj hf).symm, hs⟩⟩

/-- Settles O36, by the input the step takes: only a word can end in `FAULT`, at decode or in
execution. -/
theorem faultEntryIsPrecise : Obligations.FaultEntryIsPrecise := by
  intro s t hs hstep ht
  obtain ⟨-, ⟨-, rfl⟩ | ⟨rest, -, rfl⟩ | ⟨p, w, rest, c, hi, -, -, rfl⟩ |
    ⟨p, w, rest, i, hi, hd, hx⟩⟩ := step_next_cases hstep
  · exact absurd ht hs
  · cases ht
  · exact ⟨p, w, rest, c, hi, rfl⟩
  · obtain ⟨c, rfl⟩ := exec_fault_entry (s := { s with inputs := rest }) hs hx ht
    rw [decode_port hd, encode_of_decode hd]
    exact ⟨p, w, rest, c, hi, rfl⟩

/-- Settles O37: the decode faults first, then what each command can answer in `IDLE` and in `RUN`. -/
theorem faultPriorityIsFixed : Obligations.FaultPriorityIsFixed := by
  intro s p w h hs
  refine ⟨fun ho => ?opcode, fun o ho hf => ?field, fun n hd => ⟨fun hidle => ?pullState,
    fun hrun h2 => ?pullAlign, fun hrun h2 hn => ?pullLength, fun hrun h2 hn => ?pullLegal⟩,
    fun r b c f hd => ⟨fun hrun => ?openState, fun hidle hm => ?openMismatch,
      fun hidle hm => ?openMatch⟩,
    fun hd => ⟨fun hidle => ?closeState, fun hrun => ?closeLegal⟩,
    fun i hd hclose hpull hopen => ?others⟩
  case opcode => exact runWord_of_error_ok (decode_eq_opcode_iff.2 ho) h.cfgWf hs
  case field =>
    exact runWord_of_error_ok ((decode_eq_field_iff ho).2 (Bool.eq_false_iff.1 hf)) h.cfgWf hs
  case pullState => exact runWord_of_raised hd (exec_of_wrongState h.cfgWf hidle)
  case pullAlign =>
    have hodd : n.toNat % 2 ≠ 0 := by omega
    exact runWord_of_raised hd (execPull_next.2 ⟨h.cfgWf, .inr (.inl ⟨hrun, hodd, rfl⟩)⟩)
  case pullLength =>
    exact runWord_of_raised hd (execPull_next.2 ⟨h.cfgWf, .inr (.inr (.inl ⟨hrun, h2, hn, rfl⟩))⟩)
  case pullLegal => exact ⟨_, (runWord_of_ok hd).trans (h.exec_pull hrun h2 hn), hrun, rfl⟩
  case openState => exact runWord_of_raised hd (exec_of_wrongState h.cfgWf hrun)
  case openMismatch =>
    exact runWord_of_raised hd (execOpenDevice_next.2 ⟨h.cfgWf, .inr (.inr ⟨hidle, hm, rfl⟩)⟩)
  case openMatch =>
    exact (runWord_of_ok hd).trans (execOpenDevice_next.2 ⟨h.cfgWf, .inr (.inl ⟨hidle, hm, rfl⟩)⟩)
  case closeState => exact runWord_of_raised hd (exec_of_wrongState h.cfgWf hidle)
  case closeLegal =>
    exact (runWord_of_ok hd).trans (execCloseDevice_next.2 ⟨h.cfgWf, .inr ⟨hrun, rfl⟩⟩)
  case others =>
    rw [runWord_of_ok hd]
    exact exec_keeps_opState h.cfgWf hs (wf_of_decode hd) hclose hpull hopen

/-- Settles O38. -/
theorem faultStateAnswersStatusOnly : Obligations.FaultStateAnswersStatusOnly := by
  intro s p w rest hcfg hs hi
  rw [step_of_command hi]
  exact ⟨fun sel hd => runWord_of_rdstat (s := { s with inputs := rest }) hcfg hd,
    runWord_in_fault (s := { s with inputs := rest }) hcfg hs⟩

/-- Settles O40: of the ways a step may treat `STATE` (R236), only reset leaves `FAULT`. -/
theorem faultOutShowsTheFaultState : Obligations.FaultOutShowsTheFaultState := by
  have hlevel (s : State) : s.faultOut = true ↔ s.opState = .fault := decide_eq_true_iff
  refine ⟨hlevel, fun s h => (hlevel s).trans h.faultHeld, fun s t hstep hout hreset => ?_⟩
  have hs : s.opState = .fault := (hlevel s).1 hout
  refine (hlevel t).2 ?_
  obtain ⟨⟨rest, hi⟩, -⟩ | ⟨-, hidle, -⟩ | ⟨-, hrun, -⟩ | ⟨-, ht, -⟩ | ⟨ht, -⟩ :=
    lifecycleTransitions s t hstep
  · exact absurd hi (hreset rest)
  · cases hs.symm.trans hidle
  · cases hs.symm.trans hrun
  · exact ht
  · exact ht.trans hs

end Sys2Proof.Machine
end
